-- ==== Sys2Proof/Word.lean ====
section
/-!
DEFINITION. The units the spec computes with: the byte of the stream, of the accumulator and of every frame field
(R5 `BYTE`, R6), and the 10-bit word of the input port (R51).
-/

namespace Sys2Proof

/-- A byte, a natural number in 0..255 (R6). Its sum wraps modulo 256, which is the block's only wrapping arithmetic (R41). -/
abbrev Byte := BitVec 8

/-- A port word: the 10 bits `rst`, `in_valid`, `in_data[7:0]` sampled at one clock edge (R51). -/
abbrev PortWord := BitVec 10

end Sys2Proof
end

