-- ==== Sys2Proof/Config.lean ====
section
/-!
DEFINITION. What an instance of the block fixes when it is built: the parameters of R5. The functions of the model and
the machine of `Machine/AnyInstance.lean` take them as an argument; the host's machine (`Machine/Dispatch.lean`, `Machine/Step.lean`)
is that one at the spec's defaults (log entry 1).
-/

namespace Sys2Proof

/-- The four values R5 marks `param`, "constants of the instance, fixed when it is built" (R19). -/
structure Params where
  /-- `SYNC0`, first byte of the sync marker. -/
  sync0 : Byte
  /-- `SYNC1`, second byte of the sync marker. -/
  sync1 : Byte
  /-- `MAXPAY`, the largest payload length of a valid frame. -/
  maxpay : Nat
  /-- `CAP`, the accumulator's capacity in bytes. -/
  cap : Nat
  deriving DecidableEq, Repr

/-- `OVERHEAD`: the bytes of a frame other than its payload (R5). -/
abbrev overhead : Nat := 8

/-- `MINFRAME`: the shortest raw frame (R5). -/
abbrev minFrame : Nat := 8

/-- `HDR`: the bytes that must be buffered before the length is known (R5). -/
abbrev hdr : Nat := 6

/-- `MAXFRAME`: the longest raw frame of a valid frame (R5). -/
abbrev Params.maxFrame (P : Params) : Nat := P.maxpay + overhead

/-- The constraints R5 puts on every instance's parameters. -/
abbrev Params.Ok (P : Params) : Prop := P.maxpay ≤ 65535 ∧ P.maxFrame ≤ P.cap

/-- `SYNC0 != SYNC1`, which R5 says R112, R113, R116 and the remark of R104 assume and the defining rules do not. -/
abbrev Params.Distinct (P : Params) : Prop := P.sync0 ≠ P.sync1

/-- The default values of R5: `SYNC0 SYNC1` = `B5 62`, `MAXPAY` = 504, `CAP` = 512 (log entry 1). -/
def Config.params : Params := { sync0 := 0xB5, sync1 := 0x62, maxpay := 504, cap := 512 }

end Sys2Proof
end

