-- ==== Sys2Proof/Machine/Checksum.lean ====
section
/-!
DEFINITION. The running-sum checksum (40_checksum.md): one step and the checksum of a sequence. It is the single definition
that the encoder and the decoder share (U3).
-/

namespace Sys2Proof.Machine

/-- The two 8-bit running sums `CKA` and `CKB` (R13). -/
structure Sums where
  cka : Byte
  ckb : Byte
  deriving DecidableEq, Repr

/-- `CkStep` (R70): B takes the NEW A. -/
def ckStep (k : Sums) (x : Byte) : Sums :=
  let a := k.cka + x
  { cka := a, ckb := k.ckb + a }

/-- `Cksum` (R71): both sums start at 0 and take the bytes in order. -/
def cksum (s : List Byte) : Sums := s.foldl ckStep { cka := 0, ckb := 0 }

end Sys2Proof.Machine
end

