-- ==== Sys2Proof/Machine/Operands.lean ====
section
/-!
DEFINITION. The operand forms: the fields of the port word (R51), slices of a byte sequence (R6), and the little-endian
length field in both directions (R32, R57).
-/

namespace Sys2Proof.Machine

/-- `rst`, bit `W[9]` (R51). -/
def portRst (w : PortWord) : Bool := w.getLsbD 9

/-- `in_valid`, bit `W[8]` (R51). -/
def portValid (w : PortWord) : Bool := w.getLsbD 8

/-- `in_data`, bits `W[7:0]`, bit 7 most significant (R34, R51). -/
def portData (w : PortWord) : Byte := w.extractLsb' 0 8

/-- `s[i:j]`: the elements at the indices `i` up to but not including `j` (R6). -/
def slice (s : List Byte) (i j : Nat) : List Byte := (s.take j).drop i

/-- The declared length `L = s[4] + 256 * s[5]`, low byte first, a natural number in 0..65535 (R32, R57). -/
def lenOf (lo hi : Byte) : Nat := lo.toNat + 256 * hi.toNat

/-- `L mod 256`, the low length byte (R57). -/
def lenLo (n : Nat) : Byte := BitVec.ofNat 8 n

/-- `L div 256`, the high length byte of a length the 16-bit field can hold (R57). -/
def lenHi (n : Nat) : Byte := BitVec.ofNat 8 (n / 256)

end Sys2Proof.Machine
end

