-- ==== Sys2Proof/Machine/Types.lean ====
section
/-!
DEFINITION. The types of R8 that the rules are written in: `Frame`, the failure causes of R131, `DecodeResult`, and the
three outcomes of a classification (the spec's `Outcome`, here `Verdict`, since `Host.Outcome` is a step's).
-/

namespace Sys2Proof.Machine

/-- A `Frame`: class, id, payload, held by value (R8, R88). It is valid when its payload has at most `MAXPAY` bytes. -/
structure Frame where
  messageClass : Byte
  messageId : Byte
  payload : List Byte
  deriving DecidableEq, Repr

/-- Why a byte sequence is no frame, or a candidate is rejected: the closed enumeration of R131. They are values: none
reaches a port (R130). -/
inductive Cause where
  /-- Fewer than 8 bytes; `Decode` only. -/
  | tooShort
  /-- The first two bytes are not the sync pair; `Decode` only. -/
  | badSync
  /-- The declared length plus 8 is not the length of the input; `Decode` only. -/
  | lenMismatch
  /-- A recomputed checksum byte differs from the stored one; `Decode` and `Classify`. -/
  | badCksum
  /-- The declared length is above `MAXPAY`; `Classify` only. -/
  | lenOverMax
  deriving DecidableEq, Repr

/-- `DecodeResult` of R8. -/
inductive DecodeResult where
  | frame (f : Frame)
  | noFrame (reason : Cause)
  deriving DecidableEq, Repr

/-- `Outcome` of R8: what `Classify` says of the candidate at the read position. -/
inductive Verdict where
  /-- `ACCEPT(f, n)`: the frame `f` occupies the first `n` bytes. -/
  | accept (f : Frame) (n : Nat)
  /-- `WAIT`: not all bytes are there yet. -/
  | wait
  /-- `REJECT(reason)`: no frame starts here. -/
  | reject (reason : Cause)
  deriving DecidableEq, Repr

end Sys2Proof.Machine
end

