-- ==== Sys2Proof/Machine/Codec.lean ====
section
/-!
DEFINITION. The Frame Codec (41_codec.md): the wire form of a frame, `Encode` with its domain, and `Decode`.
-/

namespace Sys2Proof.Machine

/-- The summed span of a frame: class, id, both length bytes and the payload (R58, R80 `body`). -/
def frameBody (f : Frame) : List Byte :=
  [f.messageClass, f.messageId, lenLo f.payload.length, lenHi f.payload.length] ++ f.payload

/-- The bytes of the WIRE format (R55): sync pair, body, checksum A, checksum B. -/
def wireBytes (P : Params) (body : List Byte) (a b : Byte) : List Byte :=
  [P.sync0, P.sync1] ++ body ++ [a, b]

/-- The formula of `Encode` (R80). It is the wire form of `f` where the payload's length fits the 16-bit field. -/
def rawFrame (P : Params) (f : Frame) : List Byte :=
  wireBytes P (frameBody f) (cksum (frameBody f)).cka (cksum (frameBody f)).ckb

/-- `Encode` on its domain (R81): a payload above 65535 bytes is refused, never truncated (U12). -/
def encodeFrame (P : Params) (f : Frame) : Option (List Byte) :=
  if f.payload.length ≤ 65535 then some (rawFrame P f) else none

/-- `Decode` (R82): the checks in the spec's order, the first that fails decides. `L + 8` is computed without wrap (R41),
and `MAXPAY` is not tested here (R86). The last case cannot arise, since the length has been tested. -/
def decodeFrame (P : Params) (s : List Byte) : DecodeResult :=
  if s.length < minFrame then .noFrame .tooShort
  else
    match s with
    | s0 :: s1 :: c :: i :: lo :: hi :: _ =>
      if s0 ≠ P.sync0 ∨ s1 ≠ P.sync1 then .noFrame .badSync
      else if lenOf lo hi + overhead ≠ s.length then .noFrame .lenMismatch
      else
        let k := cksum (slice s 2 (hdr + lenOf lo hi))
        if s.drop (hdr + lenOf lo hi) ≠ [k.cka, k.ckb] then .noFrame .badCksum
        else .frame ⟨c, i, slice s hdr (hdr + lenOf lo hi)⟩
    | _ => .noFrame .tooShort

end Sys2Proof.Machine
end

