-- ==== Sys2Proof/Machine/Output.lean ====
section
/-!
DEFINITION. The output record (R62): the bytes of one frame on `out_data`, the beats with `out_first` and `out_last`, and the
reader that recovers the frames from the byte stream alone.
-/

namespace Sys2Proof.Machine

/-- `OutRec(f) = [c, i, L mod 256, L div 256] ++ p` (R62). It is the span the checksum covers (R58). -/
def outRec (f : Frame) : List Byte := frameBody f

/-- One edge of the output port with `out_valid = 1` (R20, R62). -/
structure OutBeat where
  outData : Byte
  outFirst : Bool
  outLast : Bool
  deriving DecidableEq, Repr

/-- The rest of a record after its first byte: `out_last` exactly on the last byte. -/
def tailBeats : List Byte → List OutBeat
  | [] => []
  | [x] => [⟨x, false, true⟩]
  | x :: y :: rest => ⟨x, false, false⟩ :: tailBeats (y :: rest)

/-- The beats of one record, in order: `out_first` exactly on the class byte (R62). -/
def recordBeats (f : Frame) : List OutBeat :=
  match outRec f with
  | [] => []
  | c :: rest => ⟨c, true, rest.isEmpty⟩ :: tailBeats rest

/-- The beats of the records of successive frames, in emission order, never interleaved (R62). -/
def outBeats (fs : List Frame) : List OutBeat := fs.flatMap recordBeats

/-- One output record at the head of a byte stream, with the rest: the length bytes say where it ends (R62
"self-delimiting"). `none` where a record is not whole. -/
def readRecord : List Byte → Option (Frame × List Byte)
  | c :: i :: lo :: hi :: rest =>
    if lenOf lo hi ≤ rest.length then some (⟨c, i, rest.take (lenOf lo hi)⟩, rest.drop (lenOf lo hi)) else none
  | _ => none

/-- Up to `n` output records at the head of a byte stream. -/
def readRecordsLoop : Nat → List Byte → List Frame
  | 0, _ => []
  | n + 1, s =>
    match readRecord s with
    | none => []
    | some (f, rest) => f :: readRecordsLoop n rest

/-- The frames recovered from the bytes of the output port (R62). A record takes at least four bytes. -/
def readRecords (s : List Byte) : List Frame := readRecordsLoop s.length s

end Sys2Proof.Machine
end

