-- ==== Sys2Proof/Machine/State.lean ====
section
/-!
DEFINITION. The state of the machine as plain data (10_state.md): the accumulator, the history of emitted frames, and the
port words still to come; the reasons a step can stop; the state after reset.
-/

namespace Sys2Proof.Machine

/-- The accumulator `ACC`: its logical contents, a byte sequence of length `CNT` with index 0 at the read position (R11, R14).
An index at or above `CNT` holds no value (log entry 2). -/
abbrev Memory := List Byte

/-- The accumulator as cells (address, byte), addresses strictly rising from 0, none for an address that holds no value. -/
def Memory.cells (m : Memory) : List Host.Cell := m.zipIdx.map (fun c => (c.2, c.1))

/-- The accumulator fits in its `CAP` cells (R11, R40). -/
abbrev Memory.wf (P : Params) (m : Memory) : Prop := m.length ≤ P.cap

/-- One rising edge of `clk` at the input port: the word presented, and whether the block can take a byte (R20, R51). The
value of `in_ready` is the implementation's at each edge (U9): any value is a legal one (log entry 6). -/
structure Edge where
  word : PortWord
  inReady : Bool
  deriving DecidableEq, Repr

/-- The machine's state. `acc` is all of the block's architectural state (R10); `out` is the history `OUT` (R21, log entry 4);
`input` is the environment's words at the coming edges, the next one first (R51, log entry 5). -/
structure State where
  acc : Memory
  out : List Frame
  input : List Edge
  deriving DecidableEq, Repr

/-- Why the machine would stop with a fault. There is no such reason: no operation of the block traps, faults or halts
(R130), and "there is no behaviour a model should treat as `fault` or `stuck`" (93_implementation_defined.md). Raised by nothing. -/
inductive Fault
  deriving DecidableEq, Repr

/-- Why the machine gives an instruction no meaning. No step raises one: the words of the port decode to `RESET`, `PUSHB`
and `IDLE`, which always answer a next state. -/
inductive Refusal where
  /-- An instruction with no meaning yet: raised by no arm. Safe. -/
  | notModelled (mnemonic : String)
  /-- Raised by `OUTREC` for a term whose length bytes do not declare its payload's length, or whose payload is longer than
  `MAXPAY`: such bytes are the record of no valid frame (R62). Safe. -/
  | notAnOutputRecord
  deriving DecidableEq, Repr

/-- The machine right after a `RESET` operation (R23, R151): the accumulator empty, the history restarted. No port word is
listed, which is the model's choice (log entry 5). -/
def State.reset : State := { acc := [], out := [], input := [] }

/-- `CNT`, the number of valid bytes in `ACC` (R12). -/
def State.cnt (s : State) : Nat := s.acc.length

end Sys2Proof.Machine
end

