-- ==== Sys2Proof/Machine/Ops.lean ====
section
/-!
DEFINITION. The named operations over the accumulator and the state (R31, R7): read, append, advance; what a rejection does in
the place of an exception (R135); and `emit`.
-/

namespace Sys2Proof.Machine

/-- `MemRead(i, n)`: the `n` bytes at index `i`, defined only for `i + n <= CNT` (R31). -/
def Memory.read (m : Memory) (i n : Nat) : Option (List Byte) :=
  if i + n ≤ m.length then some ((m.drop i).take n) else none

/-- `ACC <- ACC ++ [x]`: the only write, at index `CNT` (R31). -/
def Memory.append (m : Memory) (x : Byte) : Memory := m ++ [x]

/-- `ACC <- ACC[n:]`: the read position advances by `n` bytes, the only removal (R14, R31). -/
def Memory.advance (m : Memory) (n : Nat) : Memory := m.drop n

/-- What a rejection does, and all of it (R135): the read position advances by one byte. Nothing is saved, no mode or mask
changes, and the scan resumes within the same operation (R136). -/
def Memory.resync (m : Memory) : Memory := m.advance 1

/-- `emit f`: append the frame to the output (R7). -/
def State.emit (s : State) (f : Frame) : State := { s with out := s.out ++ [f] }

/-- The end of an operation that yields frames and a tail: emit every frame in order, keep the tail (R107). -/
def State.absorb (s : State) (r : List Frame × Memory) : State :=
  { r.1.foldl State.emit s with acc := r.2 }

/-- The beats of the output port at which `out_valid = 1`, since reset (R62, log entry 11). -/
def State.outPort (s : State) : List OutBeat := outBeats s.out

end Sys2Proof.Machine
end

