-- ==== Sys2Proof/Machine/Reassembly.lean ====
section
/-!
DEFINITION. The Reassembly Buffer (42_reassembly.md): `FindSync`, `Trim`, `Classify`, `Drain` and `Feed`.
-/

namespace Sys2Proof.Machine

/-- `FindSync` (R101): the position of the first sync pair. -/
def findSync (P : Params) : List Byte → Option Nat
  | [] => none
  | x :: rest =>
    if x = P.sync0 ∧ rest.head? = some P.sync1 then some 0 else (findSync P rest).map (· + 1)

/-- `Trim` (R102): discard every byte that cannot be the start of a frame. -/
def trim (P : Params) (s : Memory) : Memory :=
  match findSync P s with
  | some p => s.advance p
  | none => if s.getLast? = some P.sync0 then [P.sync0] else []

/-- `Classify` (R103), for a sequence that starts with the sync pair; the tests in the order of R134. The candidate is cut to
its declared length before `Decode` sees it (C2). The last line is `|s| < 6`: the length bytes are not all present. -/
def classify (P : Params) (s : Memory) : Verdict :=
  match s with
  | _ :: _ :: _ :: _ :: lo :: hi :: _ =>
    if P.maxpay < lenOf lo hi then .reject .lenOverMax
    else if s.length < lenOf lo hi + overhead then .wait
    else
      match decodeFrame P (s.take (lenOf lo hi + overhead)) with
      | .frame f => .accept f (lenOf lo hi + overhead)
      | .noFrame _ => .reject .badCksum
  | _ => .wait

/-- The loop of `Drain` (R104), at most `n` iterations of it. -/
def drainLoop (P : Params) : Nat → Memory → List Frame × Memory
  | 0, s => ([], s)
  | n + 1, s =>
    let t := trim P s
    if t.length < 2 then ([], t)
    else
      match classify P t with
      | .wait => ([], t)
      | .accept f k => let r := drainLoop P n (t.advance k); (f :: r.1, r.2)
      | .reject _ => drainLoop P n t.resync

/-- `Drain` (R104): the frames found, in order, and the tail to keep. R105 bounds its loop by `|s| + 1` iterations
(log entry 15). -/
def drain (P : Params) (s : Memory) : List Frame × Memory := drainLoop P (s.length + 1) s

/-- What `PUSHB x` does to the accumulator: append first, then scan (R44, R107). -/
def pushByte (P : Params) (acc : Memory) (x : Byte) : List Frame × Memory := drain P (acc.append x)

/-- `Feed` (R109): the bytes of a chunk one after the other, the frames of each in order. -/
def feed (P : Params) (acc : Memory) : List Byte → List Frame × Memory
  | [] => ([], acc)
  | x :: rest =>
    let r := pushByte P acc x
    let q := feed P r.2 rest
    (r.1 ++ q.1, q.2)

end Sys2Proof.Machine
end

