-- ==== Sys2Proof/Syntax.lean ====
section
/-!
DEFINITION. The rows of the opcode table (R63): three operations of the input port, the pseudo-operation, and the two data
objects, with the fields the table names. Log entries 7, 8 and 9 say what the last three stand for as instructions.
-/

namespace Sys2Proof

/-- One constructor for each row of the opcode table. -/
inductive Instr where
  /-- `RESET`: discard the tail (R50, R106). -/
  | reset
  /-- `PUSHB x`: deliver one stream byte (R50, R107). -/
  | pushb (x : Byte)
  /-- `IDLE`: do nothing (R50, R108). -/
  | idle
  /-- `PUSH b0 ... b(n-1)`: deliver one transport chunk of any length (R54, R109). -/
  | push (chunk : List Byte)
  /-- `FRAME`: a byte sequence in the wire format, after its two sync bytes: class, id, low and high length byte, payload,
  checksum A, checksum B (R55, R56). -/
  | frame (c i l h : Byte) (payload : List Byte) (a b : Byte)
  /-- `OUTREC`: a byte sequence in the output format: class, id, low and high length byte, payload (R62). -/
  | outrec (c i l h : Byte) (payload : List Byte)
  deriving DecidableEq, Repr

end Sys2Proof
end

