-- ==== Sys2Proof/WellFormed.lean ====
section
/-!
DEFINITION. Which terms of `Instr` are encodings the table admits: every operation is; a `FRAME` declares its payload's
length, at most `MAXPAY`, and carries its checksum (R55 to R58); an `OUTREC` declares its payload's length, at most `MAXPAY` (R62).
-/

namespace Sys2Proof

open Machine

/-- The two length bytes declare the payload's length (R57). -/
def lengthDeclared (l h : Byte) (payload : List Byte) : Bool := lenOf l h == payload.length

/-- The payload is that of a valid frame (R8). -/
def payloadFits (P : Params) (payload : List Byte) : Bool := decide (payload.length ≤ P.maxpay)

/-- The checksum bytes are those of the summed span (R58). -/
def checksumHolds (body : List Byte) (a b : Byte) : Bool := cksum body == ⟨a, b⟩

/-- The well-formed instructions. -/
def Instr.wellFormed (P : Params) : Instr → Bool
  | .reset => true
  | .pushb _ => true
  | .idle => true
  | .push _ => true
  | .frame c i l h payload a b =>
    lengthDeclared l h payload && payloadFits P payload && checksumHolds ([c, i, l, h] ++ payload) a b
  | .outrec _ _ l h payload => lengthDeclared l h payload && payloadFits P payload

end Sys2Proof
end

