-- ==== Sys2Proof/Machine/DataObjects.lean ====
section
/-!
DEFINITION. The meanings of the two data objects of the table (R63). Neither is an operation of the port (R50): a `FRAME`
reaches the block as the `PUSHB`s of its bytes (log entry 8), an `OUTREC` is what `emit` sends (log entry 9).
As in `PortOps.lean`, the definitions whose names end in `Of` take the parameters (R5).
-/

namespace Sys2Proof.Machine

/-- `FRAME` in the instance with parameters `P`: its bytes (R55) arrive at the input, in order. Whether the block recognises them is its own affair (R82, R103):
bytes in the format whose checksum or length is wrong are delivered all the same. -/
def execFrameOf (P : Params) (c i l h : Byte) (payload : List Byte) (a b : Byte) (s : State) :
    Host.Outcome State Fault Refusal :=
  .next (s.absorb (feed P s.acc (wireBytes P ([c, i, l, h] ++ payload) a b)))

/-- `FRAME` at the defaults. -/
def execFrame (c i l h : Byte) (payload : List Byte) (a b : Byte) (s : State) : Host.Outcome State Fault Refusal :=
  execFrameOf Config.params c i l h payload a b s

/-- `OUTREC` in the instance with parameters `P`: the record of the frame `(c, i, payload)` leaves the block (R62), which is `emit` of that frame (R7). Bytes that
are the record of no valid frame are refused. -/
def execOutrecOf (P : Params) (c i l h : Byte) (payload : List Byte) (s : State) : Host.Outcome State Fault Refusal :=
  if lengthDeclared l h payload && payloadFits P payload then .next (s.emit ⟨c, i, payload⟩)
  else .refused .notAnOutputRecord

/-- `OUTREC` at the defaults. -/
def execOutrec (c i l h : Byte) (payload : List Byte) (s : State) : Host.Outcome State Fault Refusal :=
  execOutrecOf Config.params c i l h payload s

end Sys2Proof.Machine
end

