-- ==== Sys2Proof/Machine/PortOps.lean ====
section
/-!
DEFINITION. The meanings of the port's operations `RESET`, `PUSHB`, `IDLE` and of the pseudo-operation `PUSH` (R106 to R109).
Every one answers a next state: no operation of the block fails (R130). What depends on the parameters takes them as an argument
(R5) in the definition whose name ends in `Of`; the meaning without it is the one at the defaults.
-/

namespace Sys2Proof.Machine

/-- `RESET` (R106): the accumulator is emptied and nothing is emitted; the history restarts (R23). -/
def execReset (s : State) : Host.Outcome State Fault Refusal := .next { s with acc := [], out := [] }

/-- `PUSHB x` (R107) in the instance with parameters `P`: append `x`, drain, keep the tail, emit every frame found, in order. -/
def execPushbOf (P : Params) (x : Byte) (s : State) : Host.Outcome State Fault Refusal :=
  .next (s.absorb (pushByte P s.acc x))

/-- `PUSHB x` (R107) at the defaults. -/
def execPushb (x : Byte) (s : State) : Host.Outcome State Fault Refusal := execPushbOf Config.params x s

/-- `IDLE` (R108): no state change, nothing emitted. -/
def execIdle (s : State) : Host.Outcome State Fault Refusal := .next s

/-- `PUSH chunk` (R109) in the instance with parameters `P`: the `PUSHB`s of its bytes, in order. -/
def execPushOf (P : Params) (chunk : List Byte) (s : State) : Host.Outcome State Fault Refusal :=
  .next (s.absorb (feed P s.acc chunk))

/-- `PUSH chunk` (R109) at the defaults. -/
def execPush (chunk : List Byte) (s : State) : Host.Outcome State Fault Refusal := execPushOf Config.params chunk s

end Sys2Proof.Machine
end

