-- ==== Sys2Proof/Machine/Dispatch.lean ====
section
/-!
DEFINITION. One arm for each row of the opcode table.
-/

namespace Sys2Proof.Machine

/-- The meaning of an instruction. -/
def exec (i : Instr) (s : State) : Host.Outcome State Fault Refusal :=
  match i with
  | .reset => Sys2Proof.Machine.execReset s
  | .pushb x => Sys2Proof.Machine.execPushb x s
  | .idle => Sys2Proof.Machine.execIdle s
  | .push chunk => Sys2Proof.Machine.execPush chunk s
  | .frame c n l h payload a b => Sys2Proof.Machine.execFrame c n l h payload a b s
  | .outrec c n l h payload => Sys2Proof.Machine.execOutrec c n l h payload s

end Sys2Proof.Machine
end

