-- ==== Sys2Proof/Decode.lean ====
section
/-!
DEFINITION. The decoder and the encoder of the table's rows (30_encoding.md): port words (R51, R52), chunks (R54), wire frames
(R55, R82) and output records (R62); then the host's reading of a table word.
-/

namespace Sys2Proof

open Machine

/-- The encoded form of an instruction, one constructor for each format of the table (`PSEUDO` is a run of port words). -/
inductive Code where
  /-- Taken port words, in edge order (R51). -/
  | port (ws : List PortWord)
  /-- Bytes in the WIRE format, in arrival order (R55). -/
  | wire (bs : List Byte)
  /-- Bytes in the OUT format, in sending order (R62). -/
  | out (bs : List Byte)
  deriving DecidableEq, Repr

/-- Why a code is no instruction. -/
inductive DecodeError where
  /-- Several port words that are not all `PUSHB`: several instructions, not one (R54). -/
  | notOneOperation
  /-- The bytes are no frame, for one of the four reasons of R82. -/
  | noFrame (reason : Cause)
  /-- `Decode` accepts the bytes but the payload is longer than `MAXPAY`: no valid frame (R8, R86). -/
  | payloadOverMax
  /-- The bytes are not one whole output record of a valid frame (R62). -/
  | notARecord
  deriving DecidableEq, Repr

/-- A port word to its operation (R52): a word selects the row whose match equals the word under the row's mask. The
remaining row is `IDLE`, match `0x000` under mask `0x300`; no word is illegal (R53). -/
def decodePort (w : PortWord) : Instr :=
  if w &&& 0x200 = 0x200 then .reset
  else if w &&& 0x300 = 0x100 then .pushb (portData w)
  else .idle

/-- The byte a port word delivers, if it is a `PUSHB`. -/
def pushedByte (w : PortWord) : Option Byte :=
  match decodePort w with
  | .pushb x => some x
  | _ => none

/-- A run of port words: one word is its operation, any other number of `PUSHB`s is a chunk (R54, R63). -/
def decodePortWords : List PortWord → Except DecodeError Instr
  | [w] => .ok (decodePort w)
  | ws =>
    match ws.mapM pushedByte with
    | some chunk => .ok (.push chunk)
    | none => .error .notOneOperation

/-- A whole byte sequence to the `FRAME` it is (R63: recognised by R82, a valid frame by R8). The last case cannot arise. -/
def decodeWire (P : Params) (s : List Byte) : Except DecodeError Instr :=
  match decodeFrame P s with
  | .noFrame reason => .error (.noFrame reason)
  | .frame f =>
    if P.maxpay < f.payload.length then .error .payloadOverMax
    else
      match s, s.drop (hdr + f.payload.length) with
      | _ :: _ :: c :: i :: l :: h :: _, [a, b] => .ok (.frame c i l h f.payload a b)
      | _, _ => .error .notARecord

/-- A whole byte sequence to the `OUTREC` it is (R62). -/
def decodeOut (P : Params) : List Byte → Except DecodeError Instr
  | c :: i :: l :: h :: payload =>
    if lengthDeclared l h payload && payloadFits P payload then .ok (.outrec c i l h payload) else .error .notARecord
  | _ => .error .notARecord

/-- The decoder, total on any code. -/
def decode (P : Params) : Code → Except DecodeError Instr
  | .port ws => decodePortWords ws
  | .wire bs => decodeWire P bs
  | .out bs => decodeOut P bs

/-- The canonical port word of `PUSHB x`: `0x100 + x` (R52). -/
def pushbWord (x : Byte) : PortWord := 0x100 ||| x.setWidth 10

/-- The encoder: the canonical words of R52 and R54, the wire bytes of R55, the record bytes of R62. -/
def encode (P : Params) : Instr → Code
  | .reset => .port [0x200]
  | .pushb x => .port [pushbWord x]
  | .idle => .port [0x000]
  | .push chunk => .port (chunk.map pushbWord)
  | .frame c i l h payload a b => .wire (wireBytes P ([c, i, l, h] ++ payload) a b)
  | .outrec c i l h payload => .out ([c, i, l, h] ++ payload)

/-- The spelling the decoder answers: `PUSH` of one byte has the words of `PUSHB` (R54), every other instruction is its own
(log entry 7). -/
def normalForm : Instr → Instr
  | .push [x] => .pushb x
  | i => i

/-- The `n` bytes of `w`, the least significant first: the table's numbering of a row's bytes in arrival order. -/
def bytesOfNat : Nat → Nat → List Byte
  | 0, _ => []
  | n + 1, w => BitVec.ofNat 8 w :: bytesOfNat n (w / 256)

/-- The declared length in the first bytes of an object whose length bytes stand at index `k` and `k + 1`. -/
def lenAt (k : Nat) (s : List Byte) : Nat :=
  match s.drop k with
  | lo :: hi :: _ => lenOf lo hi
  | _ => 0

/-- A table row's word as code: a port word of 10 bits; the six header bytes of a `FRAME` or the four of an `OUTREC`, with
every byte after them 0 (log entry 13). -/
def codeOfTableWord (nbits w : Nat) : Option Code :=
  if nbits ≤ 16 then
    if w < 1024 then some (.port [BitVec.ofNat 10 w]) else none
  else if nbits = 48 then
    let header := bytesOfNat 6 w
    some (.wire (header ++ List.replicate (lenAt 4 header + 2) 0))
  else if nbits = 32 then
    let header := bytesOfNat 4 w
    some (.out (header ++ List.replicate (lenAt 2 header) 0))
  else none

/-- The instruction the decoder of the instance with parameters `P` reads from a word of the opcode table. -/
def decodeTableWordOf (P : Params) (nbits w : Nat) : Option Instr :=
  match codeOfTableWord nbits w with
  | none => none
  | some code =>
    match decode P code with
    | .ok i => some i
    | .error _ => none

/-- The same at the defaults. -/
def decodeTableWord (nbits w : Nat) : Option Instr := decodeTableWordOf Config.params nbits w

end Sys2Proof
end

