-- ==== Sys2Proof/Machine/Fetch.lean ====
section
/-!
DEFINITION. What the block takes at an edge of the clock (R51), which stands in the place of an instruction fetch: it has no
program counter and no stored program (R14, R44).
-/

namespace Sys2Proof.Machine

/-- The word is taken at this edge: `rst = 1` or `in_ready = 1` (R51). -/
def Edge.taken (e : Edge) : Bool := portRst e.word || e.inReady

/-- The words the environment presents for a sequence of operations, at edges where the block is ready. -/
def readyEdges (ws : List PortWord) : List Edge := ws.map (fun w => ⟨w, true⟩)

/-- The operation stream of a run: the taken words in edge order (R51). -/
def takenWords (es : List Edge) : List PortWord := (es.filter Edge.taken).map Edge.word

/-- What the next edge brings: the instruction taken, if any, and the state with that edge past. With no word listed the port
is quiet, and the absence of `PUSHB` is `IDLE` (R140, log entry 5). -/
def fetch (s : State) : Option Instr × State :=
  match s.input with
  | [] => (some .idle, s)
  | e :: rest => (if e.taken then some (decodePort e.word) else none, { s with input := rest })

/-- One edge of a machine whose instructions mean `run`: the word taken is executed; at an edge that takes none the block sees
nothing (R51). -/
def atEdge (run : Instr → State → Host.Outcome State Fault Refusal) (s : State) : Host.Outcome State Fault Refusal :=
  match fetch s with
  | (some i, t) => run i t
  | (none, t) => .next t

/-- The edges that present a table row's word: the port word itself, or the `PUSHB`s of a `FRAME`'s bytes. An `OUTREC` is no
input and is presented by no edge. -/
def presentedEdges : Option Code → List Edge
  | some (.port ws) => readyEdges ws
  | some (.wire bs) => readyEdges (bs.map pushbWord)
  | some (.out _) => []
  | none => []

end Sys2Proof.Machine
end

