-- ==== Sys2Proof/Machine/Step.lean ====
section
/-!
DEFINITION. One step: one rising edge of `clk` (R9, R51).
-/

namespace Sys2Proof.Machine

/-- One edge of the machine at the defaults. -/
def step (s : State) : Host.Outcome State Fault Refusal := atEdge exec s

/-- The state in which the next edge presents the table word `w` (log entry 13). -/
def State.withFetchWord (s : State) (nbits w : Nat) : State :=
  { s with input := presentedEdges (codeOfTableWord nbits w) ++ s.input }

end Sys2Proof.Machine
end

