-- ==== Sys2Proof/Machine/AnyInstance.lean ====
section
/-!
DEFINITION. The machine with the four parameters of R5 as an argument. The host's `exec`, `step` and `core` have no room for
one and are this machine at the defaults (log entry 1).
-/

namespace Sys2Proof.Machine

/-- The meaning of an instruction in the instance with parameters `P`. -/
def execOf (P : Params) (i : Instr) (s : State) : Host.Outcome State Fault Refusal :=
  match i with
  | .reset => execReset s
  | .pushb x => execPushbOf P x s
  | .idle => execIdle s
  | .push chunk => execPushOf P chunk s
  | .frame c n l h payload a b => execFrameOf P c n l h payload a b s
  | .outrec c n l h payload => execOutrecOf P c n l h payload s

/-- One edge of the instance with parameters `P`. -/
def stepOf (P : Params) (s : State) : Host.Outcome State Fault Refusal := atEdge (execOf P) s

/-- The instance with parameters `P`. Its state after reset does not depend on them (R23). -/
def blockOf (P : Params) : Host.Core :=
  { State := State, Fault := Fault, Refusal := Refusal, step := stepOf P, reset := State.reset }

end Sys2Proof.Machine
end

