-- ==== Sys2Proof/Machine/Flags.lean ====
section
/-!
DEFINITION. The block has no flag, condition code or error bit (R18). What the spec gives in their place: the numbers of the
failure causes (R131) and the phase, a view of the accumulator that adds no state (R17).
-/

namespace Sys2Proof.Machine

/-- The code of a cause (R131). -/
def Cause.code : Cause → Nat
  | .tooShort => 0
  | .badSync => 1
  | .lenMismatch => 2
  | .badCksum => 3
  | .lenOverMax => 4

/-- The four phases of R17. -/
inductive Phase where
  /-- Waiting for a byte equal to `SYNC0`. -/
  | hunt
  /-- Waiting for a byte equal to `SYNC1`. -/
  | sync1
  /-- Waiting for class, id and the two length bytes. -/
  | header
  /-- Waiting for the rest of the payload and the checksum. -/
  | body
  deriving DecidableEq, Repr

/-- `phase(ACC)` (R17), for an accumulator as it stands between operations (R16). -/
def phase (acc : Memory) : Phase :=
  match acc with
  | [] => .hunt
  | [_] => .sync1
  | _ => if acc.length < hdr then .header else .body

end Sys2Proof.Machine
end

