-- ==== Sys2Proof/Machine/Instances.lean ====
section
/-!
DEFINITION. Several instances of the block (R45): the product of independent machines, one of which takes a step.
-/

namespace Sys2Proof.Machine

/-- Instance `k` of `n` takes one edge; the others share nothing with it (R45). -/
def stepOne {n : Nat} (blocks : Vector State n) (k : Fin n) : Host.Outcome (Vector State n) Fault Refusal :=
  match step blocks[k] with
  | .next t => .next (blocks.set k t)
  | .fault r => .fault r
  | .refused r => .refused r

end Sys2Proof.Machine
end

