-- ==== Sys2Proof/Machine/Run.lean ====
section
/-!
DEFINITION. Runs and what the environment observes of them (R165), and the block as the function of a state and an operation to
a state and a list of frames (R9).
-/

namespace Sys2Proof.Machine

/-- `Step : State x Op -> State x list of Frame` (R9), for every row of the table: the frames the instruction emits and the
accumulator it leaves. -/
def opStep (P : Params) (i : Instr) (acc : Memory) : List Frame × Memory :=
  match i with
  | .reset => ([], [])
  | .pushb x => pushByte P acc x
  | .idle => ([], acc)
  | .push chunk => feed P acc chunk
  | .frame c i l h payload a b => feed P acc (wireBytes P ([c, i, l, h] ++ payload) a b)
  | .outrec c i _ _ payload => ([⟨c, i, payload⟩], acc)

/-- The frames each of the taken words emits, in order, from a given accumulator. -/
def observeFrom (P : Params) (acc : Memory) : List PortWord → List (List Frame)
  | [] => []
  | w :: rest => let r := opStep P (decodePort w) acc; r.1 :: observeFrom P r.2 rest

/-- The observation of a run (R165): the frames of each operation. A sequence that does not begin with `RESET` is no run, and is
refused (R152, U7). -/
def observeRun (P : Params) (ws : List PortWord) : Option (List (List Frame)) :=
  match ws with
  | [] => none
  | w :: rest => if decodePort w = .reset then some ([] :: observeFrom P [] rest) else none

/-- `OUT` at the end of a run: the frames emitted since the last `RESET` (R21, R23). -/
def outOfRun (P : Params) : List Frame → Memory → List PortWord → List Frame
  | out, _, [] => out
  | out, acc, w :: rest =>
    let r := opStep P (decodePort w) acc
    outOfRun P ((if decodePort w = .reset then [] else out) ++ r.1) r.2 rest

/-- A sequence of instructions executed one after the other, stopping at the first fault or refusal. -/
def execAll : List Instr → State → Host.Outcome State Fault Refusal
  | [], s => .next s
  | i :: rest, s =>
    match exec i s with
    | .next t => execAll rest t
    | .fault r => .fault r
    | .refused r => .refused r

end Sys2Proof.Machine
end

