-- ==== Sys2Proof/Safety.lean ====
section
/-!
DEFINITION. The terms claims are stated in: the invariant of R16, the scan loop as a relation (R104), the environment's duties
(R51, R152, R154), and the small notions of 30_encoding.md, 41_codec.md and 42_reassembly.md that the laws use.
-/

namespace Sys2Proof

open Machine

/-- `s` starts with the sync pair: a candidate stands at the read position. -/
abbrev StartsWithSync (P : Params) (s : List Byte) : Prop := s.take 2 = [P.sync0, P.sync1]

/-- The sync pair stands at position `p` of `s` (R101). -/
abbrev PairAt (P : Params) (s : List Byte) (p : Nat) : Prop := s[p]? = some P.sync0 ∧ s[p + 1]? = some P.sync1

/-- Non-sync noise: no sync pair anywhere (R112). -/
abbrev NoPair (P : Params) (s : List Byte) : Prop := findSync P s = none

/-- `Inv(ACC)` (R16). -/
abbrev AccInv (P : Params) (acc : Memory) : Prop :=
  acc = [] ∨ acc = [P.sync0] ∨ (2 ≤ acc.length ∧ StartsWithSync P acc ∧ classify P acc = .wait)

/-- The invariant of the machine: the accumulator has one of the shapes of R16, and every emitted frame is valid (R114). -/
abbrev StateInv (P : Params) (s : State) : Prop :=
  AccInv P s.acc ∧ ∀ f ∈ s.out, f.payload.length ≤ P.maxpay

/-- The scan loop of R104 as a relation: from a sequence to the frames it emits and the tail it keeps, one rule for each way an
iteration can go. -/
inductive Drains (P : Params) : Memory → List Frame → Memory → Prop where
  /-- Nothing to try: the trimmed sequence is `[]` or `[SYNC0]`. -/
  | nothing {s : Memory} : (trim P s).length < 2 → Drains P s [] (trim P s)
  /-- Outcome (2): keep the tail, stop. -/
  | waits {s : Memory} : 2 ≤ (trim P s).length → classify P (trim P s) = .wait → Drains P s [] (trim P s)
  /-- Outcome (1): emit, advance past the frame, continue. -/
  | accepts {s rest : Memory} {f : Frame} {n : Nat} {out : List Frame} :
      2 ≤ (trim P s).length → classify P (trim P s) = .accept f n → Drains P ((trim P s).drop n) out rest →
      Drains P s (f :: out) rest
  /-- Outcome (3): advance by one byte, continue. -/
  | rejects {s rest : Memory} {r : Cause} {out : List Frame} :
      2 ≤ (trim P s).length → classify P (trim P s) = .reject r → Drains P ((trim P s).drop 1) out rest →
      Drains P s out rest

/-- The environment holds `in_valid` and `in_data` from an edge at which the block is busy to the next one (R51, R154). DESIGN CHOICE
(log entry 18): any taken edge ends the duty, also one with `rst = 1` and `in_ready = 0`, and a byte pending at the last listed edge
counts as held. -/
def heldSteady : List Edge → Bool
  | [] => true
  | [_] => true
  | e :: e' :: rest =>
    (e.taken || (portValid e.word == portValid e'.word && portData e.word == portData e'.word)) && heldSteady (e' :: rest)

/-- The first word presented is a `RESET` (R152). -/
def beginsWithReset (ws : List PortWord) : Bool := (ws.head?.map decodePort) == some .reset

/-- The stream bytes an instruction delivers, for the rows that deliver some (R54, R107, R109). -/
def deliveredBytes (P : Params) : Instr → Option (List Byte)
  | .pushb x => some [x]
  | .push chunk => some chunk
  | .frame c i l h payload a b => some (wireBytes P ([c, i, l, h] ++ payload) a b)
  | .reset => none
  | .idle => none
  | .outrec .. => none

/-- The two bytes after a payload of `len` bytes are the checksum A and B of the span `s[2 : 6+L]` (R58). -/
abbrev ChecksumMatches (s : List Byte) (len : Nat) : Prop :=
  s[6 + len]? = some (cksum (slice s 2 (6 + len))).cka ∧ s[7 + len]? = some (cksum (slice s 2 (6 + len))).ckb

/-- Byte `k` of `s` with its bit `j` flipped (R85). -/
def flipBit (s : List Byte) (k j : Nat) : List Byte := s.modify k (· ^^^ BitVec.twoPow 8 j)

/-- The stream made of the raw forms of `fs`, each after the gap that stands before it, and then `last` (R114). -/
def interleaved (P : Params) : List (List Byte × Frame) → List Byte → List Byte
  | [], last => last
  | (gap, f) :: rest, last => gap ++ rawFrame P f ++ interleaved P rest last

end Sys2Proof
end

