-- ==== Sys2Proof/Certificates/Slice0/Obligations.lean ====
section
/-!
DEFINITION. The statements for the provers. `Config.params` holds the spec's default parameters, which `exec` and `step` have (log
entry 1); where a statement takes a `Params`, it holds of every instance of the block.
-/

open Sys2Proof Sys2Proof.Machine

/-! ## The operations of the port -/

/-- R106: the accumulator is emptied, nothing is emitted, and a second `RESET` changes nothing. That the history restarts is R23's,
and its place in the state log entry 4's. -/
def Obligations.ResetEmptiesTheAccumulator : Prop :=
  ∀ s : State, ∃ t, exec .reset s = .next t ∧ t.acc = [] ∧ t.cnt = 0 ∧ phase t.acc = .hunt ∧ t.out = [] ∧
    t.outPort = [] ∧ t.input = s.input ∧ exec .reset t = .next t

/-- R23, R151: the state after reset, item by item, and the invariant in it. -/
def Obligations.ResetStateMeetsTheInvariant : Prop :=
  StateInv Config.params State.reset ∧ State.reset.acc.wf Config.params ∧ State.reset.acc = [] ∧ State.reset.cnt = 0 ∧
    phase State.reset.acc = .hunt ∧ State.reset.out = [] ∧ State.reset.outPort = []

/-- R108: `IDLE` changes nothing, and any number of them anywhere in a sequence leaves its outcome as it was. -/
def Obligations.IdlesChangeNothingAnywhere : Prop :=
  (∀ s : State, exec .idle s = .next s) ∧
  ∀ (before after : List Instr) (n : Nat) (s : State),
    execAll (before ++ List.replicate n .idle ++ after) s = execAll (before ++ after) s

/-- R107: append first, then scan; the tail is kept, every frame found is emitted, in order; nothing else changes. -/
def Obligations.PushbDrainsTheAppendedByte : Prop :=
  ∀ (x : Byte) (s : State), ∃ t out, exec (.pushb x) s = .next t ∧
    Drains Config.params (s.acc ++ [x]) out t.acc ∧ t.out = s.out ++ out ∧ t.input = s.input

/-- R116, for every instance with `SYNC0 != SYNC1`: what one byte does, phase by phase. -/
def Obligations.PushedByteByPhase : Prop :=
  ∀ (P : Params) (acc : Memory) (x : Byte), P.Distinct → AccInv P acc →
    (phase acc = .hunt → pushByte P acc x = ([], if x = P.sync0 then [P.sync0] else [])) ∧
    (phase acc = .sync1 → pushByte P acc x =
      ([], if x = P.sync1 then [P.sync0, P.sync1] else if x = P.sync0 then [P.sync0] else [])) ∧
    (phase acc = .header → acc.length < 5 → pushByte P acc x = ([], acc ++ [x])) ∧
    (∀ lo, phase acc = .header → acc.length = 5 → acc[4]? = some lo → lenOf lo x ≤ P.maxpay →
      pushByte P acc x = ([], acc ++ [x]) ∧ phase (acc ++ [x]) = .body) ∧
    (∀ lo, phase acc = .header → acc.length = 5 → acc[4]? = some lo → P.maxpay < lenOf lo x →
      pushByte P acc x = ([], (drain P ((acc ++ [x]).drop 1)).2)) ∧
    (∀ lo hi, phase acc = .body → acc[4]? = some lo → acc[5]? = some hi → acc.length + 1 < lenOf lo hi + 8 →
      pushByte P acc x = ([], acc ++ [x])) ∧
    (∀ c i lo hi, phase acc = .body → acc[2]? = some c → acc[3]? = some i → acc[4]? = some lo → acc[5]? = some hi →
      acc.length + 1 = lenOf lo hi + 8 → ChecksumMatches (acc ++ [x]) (lenOf lo hi) →
      pushByte P acc x = ([⟨c, i, slice acc 6 (6 + lenOf lo hi)⟩], [])) ∧
    (∀ lo hi, phase acc = .body → acc[4]? = some lo → acc[5]? = some hi → acc.length + 1 = lenOf lo hi + 8 →
      ¬ ChecksumMatches (acc ++ [x]) (lenOf lo hi) → pushByte P acc x = drain P ((acc ++ [x]).drop 1))

/-- The frame of the rows that deliver bytes (`PUSHB`, `PUSH`, `FRAME`), R31: they answer a next state; the accumulator is what is
left of the old one with the bytes appended, no byte modified in place; the history is extended; the input is untouched. That a
`FRAME` delivers its bytes when it is executed is the model's choice (log entry 8), no rule's. -/
def Obligations.DeliveredBytesAreAppendedAndNeverModified : Prop :=
  ∀ (i : Instr) (bytes : List Byte) (s : State), deliveredBytes Config.params i = some bytes →
    ∃ t gone, exec i s = .next t ∧ s.acc ++ bytes = gone ++ t.acc ∧
      (∀ k n, k + n ≤ t.cnt → t.acc.read k n = (s.acc ++ bytes).read (gone.length + k) n) ∧
      s.out <+: t.out ∧ t.input = s.input

/-- R109: `PUSH` is the `PUSHB`s of its bytes, in order. -/
def Obligations.PushIsItsPushbs : Prop :=
  ∀ (chunk : List Byte) (s : State), ∃ t, exec (.push chunk) s = .next t ∧ execAll (chunk.map .pushb) s = .next t

/-- R54: the expansion of a chunk as port words, taken one an edge, is the chunk; whatever word comes after it is still to come. -/
def Obligations.ChunkAsPortWords : Prop :=
  ∀ (chunk : List Byte) (s : State) (later : List Edge), ∃ t, exec (.push chunk) s = .next t ∧
    Host.Core.run core chunk.length { s with input := readyEdges (chunk.map pushbWord) ++ later } =
      .next { t with input := later }

/-- `FRAME` (log entry 8): a well-formed raw frame that arrives when the block hunts is emitted and leaves nothing behind. -/
def Obligations.FrameArrivingWhileHuntingIsEmitted : Prop :=
  ∀ (c i l h a b : Byte) (payload : List Byte) (s : State),
    (Instr.frame c i l h payload a b).wellFormed Config.params = true → phase s.acc = .hunt →
    exec (.frame c i l h payload a b) s = .next { s with acc := [], out := s.out ++ [⟨c, i, payload⟩] }

/-- `OUTREC` (log entry 9): the record of the frame goes out, its bytes in order on the output port, and nothing else changes; bytes that
are the record of no valid frame are refused by name. -/
def Obligations.OutrecSendsItsRecord : Prop :=
  ∀ (c i l h : Byte) (payload : List Byte) (s : State),
    ((Instr.outrec c i l h payload).wellFormed Config.params = true →
      ∃ t beats, exec (.outrec c i l h payload) s = .next t ∧ t.out = s.out ++ [⟨c, i, payload⟩] ∧
        t.outPort = s.outPort ++ beats ∧ beats.map OutBeat.outData = c :: i :: l :: h :: payload ∧
        t.acc = s.acc ∧ t.input = s.input) ∧
    ((Instr.outrec c i l h payload).wellFormed Config.params = false →
      exec (.outrec c i l h payload) s = .refused .notAnOutputRecord)

/-! ## Steps and runs -/

/-- R51: at an edge that takes a word, the step is the operation the word decodes to, on the state with that edge past. With no word
listed it is `IDLE` (the model's choice, log entry 5). -/
def Obligations.StepRunsTheTakenWord : Prop :=
  (∀ (s : State) (e : Edge) (later : List Edge), s.input = e :: later → e.taken = true →
    step s = exec (decodePort e.word) { s with input := later }) ∧
  (∀ s : State, s.input = [] → step s = exec .idle s)

/-- R51, R53, R150: `RESET` whatever `in_ready` and the other bits are; a busy edge takes nothing and changes nothing. -/
def Obligations.ResetHasPriorityAndBusyEdgesTakeNothing : Prop :=
  ∀ (s : State) (e : Edge) (later : List Edge), s.input = e :: later →
    (portRst e.word = true → step s = exec .reset { s with input := later }) ∧
    (portRst e.word = false → e.inReady = false → step s = .next { s with input := later })

/-- R51, R154: a byte held from a busy edge to the next, ready one is taken there, once. -/
def Obligations.HeldByteIsTakenOnce : Prop :=
  ∀ (s : State) (e e' : Edge) (later : List Edge) (x : Byte), s.input = e :: e' :: later → heldSteady s.input = true →
    decodePort e.word = .pushb x → e.inReady = false → portRst e'.word = false → e'.inReady = true →
    Host.Core.run core 2 s = exec (.pushb x) { s with input := later }

/-- R130: no operation traps, faults or halts. From every state, a run of any length goes on. -/
def Obligations.RunsNeverStop : Prop :=
  ∀ (n : Nat) (s : State), ∃ t, Host.Core.run core n s = .next t ∧ t.input = s.input.drop n

/-- The operation stream of a run is the taken words in edge order (R51), and the history at its end is the one the transaction-level
functions of R9 give. -/
def Obligations.RunIsTheRunOfTheTakenWords : Prop :=
  ∀ s : State, ∃ t, Host.Core.run core s.input.length s = .next t ∧ t.input = [] ∧
    t.out = outOfRun Config.params s.out s.acc (takenWords s.input)

/-- R21, R23: a step extends the history, unless it takes a `RESET`, which restarts it and empties the accumulator. -/
def Obligations.OnlyResetRestartsTheHistory : Prop :=
  ∀ s t : State, step s = .next t →
    s.out <+: t.out ∨
    ∃ e later, s.input = e :: later ∧ portRst e.word = true ∧ t.out = [] ∧ t.acc = []

/-- R152, R165: a run that does not begin with `RESET` is refused; a later `RESET` starts a new segment that depends on nothing
before it. -/
def Obligations.RunsBeginWithReset : Prop :=
  (∀ (P : Params) (ws : List PortWord), observeRun P ws = none ↔ beginsWithReset ws = false) ∧
  (∀ (P : Params) (w : PortWord) (before after : List PortWord), beginsWithReset before = true → decodePort w = .reset →
    ∃ a b, observeRun P before = some a ∧ observeRun P (w :: after) = some b ∧
      observeRun P (before ++ w :: after) = some (a ++ b))

/-- R45: a step of one instance leaves the others alone, and steps of two instances commute. -/
def Obligations.InstancesAreIndependent : Prop :=
  ∀ (n : Nat) (blocks : Vector State n) (k : Fin n), ∃ (t : State) (after : Vector State n),
    step blocks[k] = .next t ∧ stepOne blocks k = .next after ∧ after[k] = t ∧
    ∀ j : Fin n, j ≠ k → after[j] = blocks[j] ∧
      ∃ other both, stepOne blocks j = .next other ∧ stepOne after j = .next both ∧ stepOne other k = .next both

/-! ## Every instance -/

/-- R5: the defaults and their constraints, and the host's machine as the instance at them (log entry 1). -/
def Obligations.DefaultsAreTheHostsMachine : Prop :=
  (Config.params.sync0 = 0xB5 ∧ Config.params.sync1 = 0x62 ∧ Config.params.maxpay = 504 ∧ Config.params.cap = 512) ∧
  (Config.params.maxFrame = 512 ∧ Config.params.Ok ∧ Config.params.Distinct) ∧
  (∀ (i : Instr) (s : State), exec i s = execOf Config.params i s) ∧ (∀ s : State, step s = stepOf Config.params s) ∧
  ∀ nbits w : Nat, decodeTableWord nbits w = decodeTableWordOf Config.params nbits w

/-- R5, R9: in every instance a well-formed instruction answers the next state of the transaction-level function, with the history
extended, or restarted by `RESET` (log entries 4, 8 and 9). -/
def Obligations.InstancesExecuteTheirStepFunction : Prop :=
  ∀ (P : Params) (i : Instr) (s : State), i.wellFormed P = true →
    execOf P i s = .next { s with acc := (opStep P i s.acc).2,
                                  out := (if i = .reset then [] else s.out) ++ (opStep P i s.acc).1 }

/-- R5, R51: in every instance, the history at the end of a run is the one its taken words give. -/
def Obligations.InstanceRunsAreTheirTakenWords : Prop :=
  ∀ (P : Params) (s : State), ∃ t, Host.Core.run (blockOf P) s.input.length s = .next t ∧ t.input = [] ∧
    t.out = outOfRun P s.out s.acc (takenWords s.input)

/-- R5, R111: in every instance a run of any length goes on, keeps the invariant, and never lacks room for a byte. -/
def Obligations.InstanceRunsKeepTheInvariant : Prop :=
  ∀ (P : Params) (n : Nat) (s : State), P.Ok → StateInv P s →
    ∃ t, Host.Core.run (blockOf P) n s = .next t ∧ StateInv P t ∧ t.cnt ≤ P.maxpay + 7 ∧ ∀ x, (t.acc.append x).wf P

/-! ## Encodings -/

/-- R52: the three rows under their masks, and how many of the 1024 words each takes. -/
def Obligations.PortWordsPartition : Prop :=
  (∀ w : PortWord, decodePort w = .reset ↔ w &&& 0x200 = 0x200) ∧
  (∀ (w : PortWord) (x : Byte), decodePort w = .pushb x ↔ w &&& 0x300 = 0x100 ∧ w.setWidth 8 = x) ∧
  (∀ w : PortWord, decodePort w = .idle ↔ w &&& 0x300 = 0) ∧
  (((List.range 1024).filter (fun n => decodePort (BitVec.ofNat 10 n) = .reset)).length = 512 ∧
   ((List.range 1024).filter (fun n => (pushedByte (BitVec.ofNat 10 n)).isSome)).length = 256 ∧
   ((List.range 1024).filter (fun n => decodePort (BitVec.ofNat 10 n) = .idle)).length = 256)

/-- Words written out from the spec's encodings (R52, V-E2, R62) decode to what they stand for. -/
def Obligations.WrittenOutWordsDecode : Prop :=
  decodePort 0b1000000000 = .reset ∧ decodePort 0b1110110101 = .reset ∧ decodePort 0b0110110101 = .pushb 0xB5 ∧
  decodePort 0b0101100010 = .pushb 0x62 ∧ decodePort 0b0000000000 = .idle ∧ decodePort 0b0011111111 = .idle ∧
  decode Config.params (.wire [0xB5, 0x62, 0x06, 0x01, 0x03, 0x00, 0x01, 0x02, 0x03, 0x10, 0x49]) =
    .ok (.frame 0x06 0x01 0x03 0x00 [0x01, 0x02, 0x03] 0x10 0x49) ∧
  decode Config.params (.out [0x06, 0x01, 0x03, 0x00, 0x01, 0x02, 0x03]) =
    .ok (.outrec 0x06 0x01 0x03 0x00 [0x01, 0x02, 0x03])

/-- Decoding an encoded well-formed instruction gives it back; `PUSH` of one byte comes back as the `PUSHB` whose word it is. -/
def Obligations.DecodeOfEncode : Prop :=
  ∀ (P : Params) (i : Instr), i.wellFormed P = true → decode P (encode P i) = .ok (normalForm i)

/-- What the decoder accepts is well-formed, and a data object has exactly the bytes that were read: no alternative spelling. -/
def Obligations.EncodeOfDecode : Prop :=
  ∀ (P : Params) (code : Code) (i : Instr), decode P code = .ok i →
    i.wellFormed P = true ∧ (∀ bs, code = .wire bs ∨ code = .out bs → encode P i = code)

/-- R62: the frames are recoverable from the bytes of the output port alone, and in each record `out_first` marks exactly the first
byte and `out_last` exactly the last. -/
def Obligations.OutputIsSelfDelimiting : Prop :=
  (∀ fs : List Frame, (outBeats fs).map OutBeat.outData = fs.flatMap outRec) ∧
  (∀ fs : List Frame, (∀ f ∈ fs, f.payload.length ≤ 65535) → readRecords ((outBeats fs).map OutBeat.outData) = fs) ∧
  (∀ (f : Frame) (k : Nat) (b : OutBeat), (recordBeats f)[k]? = some b →
    (b.outFirst = true ↔ k = 0) ∧ (b.outLast = true ↔ k + 1 = f.payload.length + 4))

/-! ## The checksum and the codec -/

/-- R70: one step of the running sum, in numbers: B takes the new A. -/
def Obligations.ChecksumStepSums : Prop :=
  ∀ a b x : Byte, (ckStep ⟨a, b⟩ x).cka.toNat = (a.toNat + x.toNat) % 256 ∧
    (ckStep ⟨a, b⟩ x).ckb.toNat = (b.toNat + (a.toNat + x.toNat) % 256) % 256

/-- R71: the sums start at 0 and take the bytes in order; zeros alone sum to 0, leading zeros change nothing, a trailing zero adds A
to B, and A does not depend on the order of the bytes, while B does. -/
def Obligations.ChecksumByteByByte : Prop :=
  cksum [] = ⟨0, 0⟩ ∧ (∀ (s : List Byte) (x : Byte), cksum (s ++ [x]) = ckStep (cksum s) x) ∧
  (∀ s : List Byte, cksum (0 :: s) = cksum s) ∧
  (∀ s : List Byte, cksum (s ++ [0]) = ⟨(cksum s).cka, (cksum s).ckb + (cksum s).cka⟩) ∧
  (∀ n : Nat, cksum (List.replicate n 0) = ⟨0, 0⟩) ∧
  (∀ s t : List Byte, s.Perm t → (cksum s).cka = (cksum t).cka) ∧
  ∃ s t : List Byte, s.Perm t ∧ (cksum s).ckb ≠ (cksum t).ckb

/-- R72: the closed form of both sums. -/
def Obligations.ChecksumClosedForm : Prop :=
  ∀ s : List Byte,
    (cksum s).cka.toNat = (s.map BitVec.toNat).sum % 256 ∧
    (cksum s).ckb.toNat = (s.zipIdx.map (fun c => (s.length - c.2) * c.1.toNat)).sum % 256

/-- R73 (a), (b), (c): a change of one byte always changes A; it is invisible to B where the byte's weight is a multiple of 256; and
adding `d` to one byte and subtracting it from another is invisible where `d` times their distance is a multiple of 256. -/
def Obligations.WhatTheChecksumDetects : Prop :=
  (∀ (s : List Byte) (k : Nat) (x y : Byte), s[k]? = some y → x ≠ y → (cksum (s.set k x)).cka ≠ (cksum s).cka) ∧
  (∀ (s : List Byte) (k : Nat) (x : Byte), k < s.length → (s.length - k) % 256 = 0 →
    (cksum (s.set k x)).ckb = (cksum s).ckb) ∧
  (∀ (s : List Byte) (j k : Nat) (d : Byte), j < k → k < s.length → d.toNat * (k - j) % 256 = 0 →
    cksum ((s.modify j (· + d)).modify k (· - d)) = cksum s)

/-- R80, R81: the raw form has `L + 8` bytes, the length bytes give `L` back; above 65535 bytes there is no raw form. -/
def Obligations.EncodeOnItsDomain : Prop :=
  ∀ (P : Params) (f : Frame),
    (f.payload.length ≤ 65535 → ∃ s, encodeFrame P f = some s ∧ s.length = f.payload.length + 8 ∧
      s.take 6 = [P.sync0, P.sync1, f.messageClass, f.messageId, lenLo f.payload.length, lenHi f.payload.length] ∧
      lenOf (lenLo f.payload.length) (lenHi f.payload.length) = f.payload.length ∧
      slice s 6 (6 + f.payload.length) = f.payload ∧ ChecksumMatches s f.payload.length) ∧
    (65535 < f.payload.length → encodeFrame P f = none)

/-- R84, R87: `Decode` answers a frame exactly on that frame's raw form, so every frame round-trips and has one spelling. -/
def Obligations.DecodeAcceptsExactlyTheRawForms : Prop :=
  ∀ (P : Params) (s : List Byte) (f : Frame),
    decodeFrame P s = .frame f ↔ f.payload.length ≤ 65535 ∧ s = rawFrame P f

/-- R82, R133: when `Decode` answers each reason, the first check that fails deciding, and the frame it answers when none does. -/
def Obligations.DecodeReasons : Prop :=
  ∀ (P : Params) (s : List Byte),
    (decodeFrame P s = .noFrame .tooShort ↔ s.length < 8) ∧
    (decodeFrame P s = .noFrame .badSync ↔ 8 ≤ s.length ∧ ¬ StartsWithSync P s) ∧
    (∀ lo hi, s[4]? = some lo → s[5]? = some hi →
      (decodeFrame P s = .noFrame .lenMismatch ↔
        8 ≤ s.length ∧ StartsWithSync P s ∧ lenOf lo hi + 8 ≠ s.length) ∧
      (decodeFrame P s = .noFrame .badCksum ↔
        StartsWithSync P s ∧ lenOf lo hi + 8 = s.length ∧ ¬ ChecksumMatches s (lenOf lo hi)) ∧
      (∀ c i, s[2]? = some c → s[3]? = some i →
        StartsWithSync P s → lenOf lo hi + 8 = s.length → ChecksumMatches s (lenOf lo hi) →
        decodeFrame P s = .frame ⟨c, i, slice s 6 (6 + lenOf lo hi)⟩)) ∧
    decodeFrame P s ≠ .noFrame .lenOverMax

/-- R85: every single-bit flip of a raw frame makes `Decode` fail, with the reason of the byte it hits. -/
def Obligations.SingleBitFlipsAreDetected : Prop :=
  ∀ (P : Params) (f : Frame) (k j : Nat), f.payload.length ≤ 65535 → k < f.payload.length + 8 → j < 8 →
    decodeFrame P (flipBit (rawFrame P f) k j) =
      .noFrame (if k < 2 then .badSync else if k = 4 ∨ k = 5 then .lenMismatch else .badCksum)

/-! ## The reassembly buffer -/

/-- R31: reading the accumulator after an append and after an advance. -/
def Obligations.MemoryReads : Prop :=
  ∀ (m : Memory) (x : Byte) (i n : Nat),
    (m.append x).read m.length 1 = some [x] ∧
    (i + n ≤ m.length → (m.append x).read i n = m.read i n ∧ (m.read i n).isSome) ∧
    (m.length < i + n → m.read i n = none) ∧
    (∀ k, k ≤ m.length → (m.advance k).read i n = m.read (k + i) n)

/-- R101: the search answers the least position that holds the pair, and nothing exactly where there is none. -/
def Obligations.FindSyncIsTheFirstPair : Prop :=
  ∀ (P : Params) (s : List Byte),
    (∀ p, findSync P s = some p ↔ PairAt P s p ∧ ∀ q, q < p → ¬ PairAt P s q) ∧
    (findSync P s = none ↔ ∀ p, ¬ PairAt P s p)

/-- R102: what trimming keeps: from the first pair on, or a final `SYNC0`, or nothing. It keeps a suffix and is idempotent. -/
def Obligations.TrimKeepsWhatCanStartAFrame : Prop :=
  ∀ (P : Params) (s : Memory),
    (∀ p, PairAt P s p → (∀ q, q < p → ¬ PairAt P s q) → trim P s = s.drop p) ∧
    ((∀ p, ¬ PairAt P s p) → trim P s = if s.getLast? = some P.sync0 then [P.sync0] else []) ∧
    trim P s <:+ s ∧ trim P (trim P s) = trim P s ∧ (2 ≤ (trim P s).length → StartsWithSync P (trim P s))

/-- R103, R134: the tests at a candidate, in their order. -/
def Obligations.ClassifyTests : Prop :=
  ∀ (P : Params) (s : Memory), StartsWithSync P s →
    (s.length < 6 → classify P s = .wait) ∧
    ∀ lo hi, s[4]? = some lo → s[5]? = some hi →
      (P.maxpay < lenOf lo hi → classify P s = .reject .lenOverMax) ∧
      (lenOf lo hi ≤ P.maxpay → s.length < lenOf lo hi + 8 → classify P s = .wait) ∧
      (lenOf lo hi ≤ P.maxpay → lenOf lo hi + 8 ≤ s.length →
        (∀ f, decodeFrame P (s.take (lenOf lo hi + 8)) = .frame f → classify P s = .accept f (lenOf lo hi + 8)) ∧
        (∀ r, decodeFrame P (s.take (lenOf lo hi + 8)) = .noFrame r → r = .badCksum ∧ classify P s = .reject .badCksum))

/-- R103: once a candidate is decided, the bytes after it do not influence the verdict. -/
def Obligations.VerdictIgnoresLaterBytes : Prop :=
  ∀ (P : Params) (s t : Memory), classify P s ≠ .wait → classify P (s ++ t) = classify P s

/-- R131: the codes of the causes, and which function raises which. -/
def Obligations.CausesAndTheirOrigins : Prop :=
  (Cause.tooShort.code = 0 ∧ Cause.badSync.code = 1 ∧ Cause.lenMismatch.code = 2 ∧ Cause.badCksum.code = 3 ∧
    Cause.lenOverMax.code = 4) ∧
  (∀ (P : Params) (s : List Byte) (r : Cause), decodeFrame P s = .noFrame r → r.code ≤ 3) ∧
  (∀ (P : Params) (s : Memory) (r : Cause), classify P s = .reject r → 3 ≤ r.code)

/-- R104, R105: `Drain`, bounded by `|s| + 1` iterations, is the spec's loop, on every input. -/
def Obligations.DrainIsTheScanLoop : Prop :=
  ∀ (P : Params) (s rest : Memory) (out : List Frame), drain P s = (out, rest) ↔ Drains P s out rest

/-- R104, R135, R136: how each outcome at a candidate moves the read position. -/
def Obligations.OutcomesMoveTheReadPosition : Prop :=
  ∀ (P : Params) (s : Memory), StartsWithSync P s →
    (classify P s = .wait → drain P s = ([], s)) ∧
    (∀ f n, classify P s = .accept f n →
      n = f.payload.length + 8 ∧ drain P s = (f :: (drain P (s.drop n)).1, (drain P (s.drop n)).2)) ∧
    (∀ r, classify P s = .reject r → drain P s = drain P (s.drop 1))

/-- R16, R17, R111: the shapes of the accumulator between operations and their phases; it never lacks room for a byte. -/
def Obligations.AccumulatorShapesAndBound : Prop :=
  ∀ (P : Params) (acc : Memory), P.Ok → AccInv P acc →
    (phase acc = .hunt ↔ acc = []) ∧ (phase acc = .sync1 ↔ acc = [P.sync0]) ∧
    (phase acc = .header ↔ 2 ≤ acc.length ∧ acc.length < 6 ∧ StartsWithSync P acc) ∧
    (phase acc = .body ↔ StartsWithSync P acc ∧ ∃ lo hi, acc[4]? = some lo ∧ acc[5]? = some hi ∧
      lenOf lo hi ≤ P.maxpay ∧ acc.length < lenOf lo hi + 8) ∧
    acc.length ≤ P.maxpay + 7 ∧ ∀ x, (acc.append x).wf P

/-- R110: feeding a stream chunk by chunk, in any split, each chunk byte by byte, is one scan of the whole: frames and tail. -/
def Obligations.ChunkingIndependence : Prop :=
  ∀ (P : Params) (acc : Memory) (chunks : List (List Byte)), AccInv P acc →
    chunks.foldl (fun r chunk => (r.1 ++ (feed P r.2 chunk).1, (feed P r.2 chunk).2)) ([], acc) =
      drain P (acc ++ chunks.flatten)

/-- R111: every step keeps the invariant, and with it the bound of 511 bytes. -/
def Obligations.StepKeepsTheInvariant : Prop :=
  ∀ s t : State, StateInv Config.params s → step s = .next t → StateInv Config.params t ∧ t.cnt ≤ 511

/-- R112: one valid frame between non-sync noise, in any chunking, yields exactly that frame. -/
def Obligations.Resynchronisation : Prop :=
  ∀ (f : Frame) (noise1 noise2 : List Byte) (chunks : List (List Byte)) (s : State),
    f.payload.length ≤ Config.params.maxpay → NoPair Config.params noise1 → NoPair Config.params noise2 →
    chunks.flatten = noise1 ++ rawFrame Config.params f ++ noise2 → s.acc = [] →
    execAll (chunks.map .push) s =
      .next { s with acc := if noise2.getLast? = some Config.params.sync0 then [Config.params.sync0] else [],
                     out := s.out ++ [f] }

/-- R44, R107: nothing is emitted before a frame's last byte, and the `PUSHB` of that byte emits it. -/
def Obligations.LastByteEmitsTheFrame : Prop :=
  ∀ (P : Params) (f : Frame), P.Ok → f.payload.length ≤ P.maxpay →
    ∃ early last, rawFrame P f = early ++ [last] ∧ feed P [] early = ([], early) ∧ pushByte P early last = ([f], [])

/-- R113: at most one frame where nothing is rejected, none after a length over the maximum, at most 63 in any case, and a state and a
byte that yield 63. -/
def Obligations.FramesPerOperation : Prop :=
  (∀ (acc : Memory) (x : Byte), AccInv Config.params acc →
    (pushByte Config.params acc x).1.length ≤ 63 ∧
    ((∀ r, classify Config.params (acc ++ [x]) ≠ .reject r) → (pushByte Config.params acc x).1.length ≤ 1 ∧
      ((pushByte Config.params acc x).1 ≠ [] → (pushByte Config.params acc x).2 = [])) ∧
    (classify Config.params (acc ++ [x]) = .reject .lenOverMax → (pushByte Config.params acc x).1 = [])) ∧
  ∃ (acc : Memory) (x : Byte), AccInv Config.params acc ∧ (pushByte Config.params acc x).1.length = 63

/-- R114: the emitted frames are valid, and their raw forms stand in the stream in order, without overlap. -/
def Obligations.EmittedFramesStandInTheStream : Prop :=
  ∀ (P : Params) (stream : List Byte), P.Ok →
    ∃ (found : List (List Byte × Frame)) (last : List Byte), (feed P [] stream).1 = found.map Prod.snd ∧
      stream = interleaved P found last ∧ (feed P [] stream).2 <:+ last ∧
      ∀ f ∈ (feed P [] stream).1, f.payload.length ≤ P.maxpay

/-- R117 (a): the first valid frame that begins inside a rejected candidate is found, whatever follows it. -/
def Obligations.FrameInsideRejectedCandidateIsFound : Prop :=
  ∀ (P : Params) (s before after : List Byte) (f : Frame) (r : Cause), P.Distinct → P.Ok → StartsWithSync P s →
    classify P s = .reject r → s = before ++ rawFrame P f ++ after → before ≠ [] → NoPair P (before.drop 1) →
    f.payload.length ≤ P.maxpay → drain P s = (f :: (drain P after).1, (drain P after).2)

/-- R115: the source's algorithm read literally is the one with no `MAXPAY` below the field's range; where it accepts no oversized
frame, what it emits this block has emitted too, in the same order. -/
def Obligations.LiteralAlgorithmEmitsNoMore : Prop :=
  ∀ (P : Params) (stream : List Byte), P.Ok →
    (∀ f ∈ (drain { P with maxpay := 65535 } stream).1, f.payload.length ≤ P.maxpay) →
    (drain { P with maxpay := 65535 } stream).1 <+: (drain P stream).1
end

