-- ==== Sys2Proof/Laws/Checksum.lean ====
section
/-!
SUPPORT. The running sums from their two ends.
-/

namespace Sys2Proof.Laws

open Machine

@[simp] theorem ckStep_cka (k : Sums) (x : Byte) : (ckStep k x).cka = k.cka + x := rfl
@[simp] theorem ckStep_ckb (k : Sums) (x : Byte) : (ckStep k x).ckb = k.ckb + (k.cka + x) := rfl

/-- The sums after one more byte at the end. -/
theorem foldl_ckStep_append (k : Sums) (s : List Byte) (x : Byte) :
    (s ++ [x]).foldl ckStep k = ckStep (s.foldl ckStep k) x := by simp

end Sys2Proof.Laws
end

