-- ==== Sys2Proof/Laws/Memory.lean ====
section
/-!
SUPPORT. The accumulator: its canonical form as cells, and what each memory operation does to its size.
-/

namespace Sys2Proof.Laws

open Machine

@[simp] theorem append_eq (m : Memory) (x : Byte) : m.append x = m ++ [x] := rfl
@[simp] theorem advance_eq (m : Memory) (n : Nat) : m.advance n = m.drop n := rfl
@[simp] theorem resync_eq (m : Memory) : m.resync = m.drop 1 := rfl

/-- The addresses of the cells are 0, 1, ..., `CNT` - 1. -/
theorem cells_addresses (m : Memory) : m.cells.map Prod.fst = List.range m.length := by
  simp [Memory.cells, List.map_map, Function.comp_def, ← List.range_eq_range']

/-- The canonical form: the addresses of the cells strictly rise. -/
theorem cells_rising (m : Memory) : (m.cells.map Prod.fst).Pairwise (· < ·) := by
  rw [cells_addresses]; exact List.pairwise_lt_range

/-- Equal memories are equal data: the cells determine the accumulator. -/
theorem cells_injective {m m' : Memory} (h : m.cells = m'.cells) : m = m' := by
  have := congrArg (List.map Prod.snd) h
  simpa [Memory.cells, List.map_map, Function.comp_def] using this

theorem wf_append {P : Params} {m : Memory} (x : Byte) (h : m.length < P.cap) : (m.append x).wf P := by
  simpa [Memory.wf] using h

theorem wf_advance {P : Params} {m : Memory} (n : Nat) (h : m.wf P) : (m.advance n).wf P := by
  simp only [Memory.wf, advance_eq, List.length_drop] at *; omega

theorem wf_resync {P : Params} {m : Memory} (h : m.wf P) : m.resync.wf P := wf_advance 1 h

theorem wf_reset (P : Params) : State.reset.acc.wf P := Nat.zero_le _

end Sys2Proof.Laws
end

