-- ==== Sys2Proof/Laws/PerInstr.lean ====
section
/-!
SUPPORT. Statements about every instruction as syntax, one lemma per constructor.
-/

namespace Sys2Proof.Laws.EncodedSize

open Machine

/-- The size the table gives the row: one port word for an operation, one for each byte of a chunk, `MINFRAME` to `MAXFRAME` bytes
for a `FRAME` (R59), 4 to `MAXPAY` + 4 bytes for an `OUTREC` (R62). -/
def Statement (i : Instr) : Prop :=
  ∀ P : Params, i.wellFormed P = true →
    match i, encode P i with
    | .push chunk, .port ws => ws.length = chunk.length
    | .frame .., .wire bs => minFrame ≤ bs.length ∧ bs.length ≤ P.maxFrame
    | .outrec .., .out bs => 4 ≤ bs.length ∧ bs.length ≤ P.maxpay + 4
    | .reset, .port ws => ws.length = 1
    | .pushb _, .port ws => ws.length = 1
    | .idle, .port ws => ws.length = 1
    | _, _ => False

theorem reset : Statement .reset := fun _ _ => rfl
theorem pushb (x : Byte) : Statement (.pushb x) := fun _ _ => rfl
theorem idle : Statement .idle := fun _ _ => rfl
theorem push (chunk : List Byte) : Statement (.push chunk) := fun _ _ => by simp [encode]

theorem frame (c i l h : Byte) (payload : List Byte) (a b : Byte) : Statement (.frame c i l h payload a b) := by
  intro P hw
  simp only [Instr.wellFormed, Bool.and_eq_true, payloadFits, decide_eq_true_eq] at hw
  simp only [minFrame, Params.maxFrame, overhead, encode, wireBytes, List.length_append, List.length_cons, List.length_nil]
  omega

theorem outrec (c i l h : Byte) (payload : List Byte) : Statement (.outrec c i l h payload) := by
  intro P hw
  simp only [Instr.wellFormed, Bool.and_eq_true, payloadFits, decide_eq_true_eq] at hw
  simp only [encode, List.length_append, List.length_cons, List.length_nil]
  omega

end Sys2Proof.Laws.EncodedSize
end

