-- ==== Sys2Proof/Laws/Scan.lean ====
section
/-!
SUPPORT. The scan of the Reassembly Buffer: what the sync search answers, what trimming keeps, how far a candidate reaches, and
the loop of R104 as an equation free of its iteration bound (R105).
-/

namespace Sys2Proof.Laws

open Machine

variable {P : Params}

@[simp] theorem findSync_nil : findSync P [] = none := rfl

/-- A sequence that starts with the pair has it at position 0. -/
theorem findSync_pair {s : List Byte} (h : s.take 2 = [P.sync0, P.sync1]) : findSync P s = some 0 := by
  match s with
  | [] => simp at h
  | [x] => simp at h
  | x :: y :: rest => simp_all [findSync]

/-- A position the search answers holds the pair. -/
theorem findSync_some {s : List Byte} {p : Nat} (h : findSync P s = some p) :
    (s.drop p).take 2 = [P.sync0, P.sync1] := by
  induction s generalizing p with
  | nil => simp at h
  | cons x rest ih =>
    simp only [findSync] at h
    split at h
    · rename_i hx
      cases rest with
      | nil => simp at hx
      | cons y rest => simp_all; simp [← h]
    · simp only [Option.map_eq_some_iff] at h
      obtain ⟨q, hq, rfl⟩ := h
      simpa using ih hq

/-- Every way trimming can go (R102). -/
theorem trim_cases (P : Params) (s : Memory) :
    (∃ p, findSync P s = some p ∧ trim P s = s.drop p) ∨
    (findSync P s = none ∧ s.getLast? = some P.sync0 ∧ trim P s = [P.sync0]) ∨
    (findSync P s = none ∧ s.getLast? ≠ some P.sync0 ∧ trim P s = []) := by
  unfold trim
  cases h : findSync P s with
  | some p => exact .inl ⟨p, rfl, rfl⟩
  | none =>
    by_cases hl : s.getLast? = some P.sync0
    · exact .inr (.inl ⟨rfl, hl, by simp [hl]⟩)
    · exact .inr (.inr ⟨rfl, hl, by simp [hl]⟩)

/-- Trimming never lengthens a sequence (R105). -/
theorem length_trim_le (P : Params) (s : Memory) : (trim P s).length ≤ s.length := by
  obtain ⟨p, -, h⟩ | ⟨-, hl, h⟩ | ⟨-, -, h⟩ := trim_cases P s
  · simp [h]
  · rw [h]; cases s with
    | nil => simp at hl
    | cons => simp
  · simp [h]

/-- A candidate at the read position is left alone. -/
theorem trim_pair {s : Memory} (h : s.take 2 = [P.sync0, P.sync1]) : trim P s = s := by
  simp [trim, findSync_pair h]

/-- An accepted frame takes at least eight bytes, all of them present (R105). -/
theorem classify_accept_length {s : Memory} {f : Frame} {n : Nat} (h : classify P s = .accept f n) :
    8 ≤ n ∧ n ≤ s.length := by
  unfold classify at h
  split at h
  · split at h
    · cases h
    · split at h
      · cases h
      · split at h
        · obtain ⟨rfl, rfl⟩ : _ ∧ _ := by simpa using h
          exact ⟨Nat.le_add_left .., by omega⟩
        · cases h
  · cases h

/-- Two iteration bounds above the length of the sequence give the same result (R105). -/
theorem drainLoop_enough (P : Params) {s : Memory} {n m : Nat} (hn : s.length < n) (hm : s.length < m) :
    drainLoop P n s = drainLoop P m s := by
  induction n generalizing m s with
  | zero => omega
  | succ n ih =>
    obtain ⟨m, rfl⟩ : ∃ k, m = k + 1 := ⟨m - 1, by omega⟩
    have hlen := length_trim_le P s
    simp only [drainLoop, advance_eq, resync_eq]
    split
    · rfl
    · have hr : ∀ k, 1 ≤ k → drainLoop P n ((trim P s).drop k) = drainLoop P m ((trim P s).drop k) :=
        fun k hk => ih (by simp only [List.length_drop]; omega) (by simp only [List.length_drop]; omega)
      split
      · rfl
      · rename_i hc
        rw [hr _ (by have := (classify_accept_length hc).1; omega)]
      · exact hr 1 (Nat.le_refl 1)

/-- The loop of R104, one iteration of it: the equation that every proof about `Drain` starts from. -/
theorem drain_unfold (P : Params) (s : Memory) :
    drain P s =
      if (trim P s).length < 2 then ([], trim P s)
      else match classify P (trim P s) with
        | .wait => ([], trim P s)
        | .accept f n => (f :: (drain P ((trim P s).drop n)).1, (drain P ((trim P s).drop n)).2)
        | .reject _ => drain P ((trim P s).drop 1) := by
  have hlen := length_trim_le P s
  rw [drain, drainLoop]
  simp only [advance_eq, resync_eq]
  split
  · rfl
  · have hr : ∀ k, 1 ≤ k → drainLoop P s.length ((trim P s).drop k) = drain P ((trim P s).drop k) :=
      fun k hk => drainLoop_enough P (by simp only [List.length_drop]; omega) (Nat.lt_succ_self _)
    cases hc : classify P (trim P s) with
    | wait => rfl
    | accept f n => simp only [hr n (by have := (classify_accept_length hc).1; omega)]
    | reject r => exact hr 1 (Nat.le_refl 1)

@[simp] theorem feed_nil (P : Params) (acc : Memory) : feed P acc [] = ([], acc) := rfl

theorem feed_cons (P : Params) (acc : Memory) (x : Byte) (rest : List Byte) :
    feed P acc (x :: rest) =
      ((pushByte P acc x).1 ++ (feed P (pushByte P acc x).2 rest).1, (feed P (pushByte P acc x).2 rest).2) := rfl

/-- Feeding two chunks one after the other is feeding their concatenation. -/
theorem feed_append (P : Params) (acc : Memory) (t u : List Byte) :
    feed P acc (t ++ u) = ((feed P acc t).1 ++ (feed P (feed P acc t).2 u).1, (feed P (feed P acc t).2 u).2) := by
  induction t generalizing acc with
  | nil => simp
  | cons x t ih => simp [feed_cons, ih]

end Sys2Proof.Laws
end

