-- ==== Sys2Proof/Laws/State.lean ====
section
/-!
SUPPORT. What each update of the state leaves in each field, so that no proof unfolds a record update.
-/

namespace Sys2Proof.Laws

open Machine

@[simp] theorem emit_acc (s : State) (f : Frame) : (s.emit f).acc = s.acc := rfl
@[simp] theorem emit_out (s : State) (f : Frame) : (s.emit f).out = s.out ++ [f] := rfl
@[simp] theorem emit_input (s : State) (f : Frame) : (s.emit f).input = s.input := rfl

/-- Emitting several frames appends them in order and touches nothing else. -/
theorem foldl_emit (fs : List Frame) (s : State) : fs.foldl State.emit s = { s with out := s.out ++ fs } := by
  induction fs generalizing s with
  | nil => simp
  | cons f fs ih => simp [ih, State.emit]

/-- The end of an operation as one record update. -/
theorem absorb_eq (s : State) (r : List Frame × Memory) :
    s.absorb r = { s with acc := r.2, out := s.out ++ r.1 } := by
  simp [State.absorb, foldl_emit]

@[simp] theorem absorb_acc (s : State) (r : List Frame × Memory) : (s.absorb r).acc = r.2 := by
  simp [absorb_eq]
@[simp] theorem absorb_out (s : State) (r : List Frame × Memory) : (s.absorb r).out = s.out ++ r.1 := by
  simp [absorb_eq]
@[simp] theorem absorb_input (s : State) (r : List Frame × Memory) : (s.absorb r).input = s.input := by
  simp [absorb_eq]

@[simp] theorem reset_acc : State.reset.acc = [] := rfl
@[simp] theorem reset_out : State.reset.out = [] := rfl
@[simp] theorem reset_input : State.reset.input = [] := rfl

end Sys2Proof.Laws
end

