-- ==== Sys2Proof/Laws/Step.lean ====
section
/-!
SUPPORT. What each meaning answers, as one equation, everything a step can be, and the host's machine as an instance of the
parameterised one.
-/

namespace Sys2Proof.Laws

open Machine

@[simp] theorem exec_pushb (x : Byte) (s : State) :
    exec (.pushb x) s = .next (s.absorb (pushByte Config.params s.acc x)) := rfl

@[simp] theorem exec_push (chunk : List Byte) (s : State) :
    exec (.push chunk) s = .next (s.absorb (feed Config.params s.acc chunk)) := rfl

@[simp] theorem exec_frame (c i l h : Byte) (payload : List Byte) (a b : Byte) (s : State) :
    exec (.frame c i l h payload a b) s =
      .next (s.absorb (feed Config.params s.acc (wireBytes Config.params ([c, i, l, h] ++ payload) a b))) := rfl

theorem exec_outrec (c i l h : Byte) (payload : List Byte) (s : State) :
    exec (.outrec c i l h payload) s =
      if (Instr.outrec c i l h payload).wellFormed Config.params then .next (s.emit ⟨c, i, payload⟩)
      else .refused .notAnOutputRecord := rfl

/-- The same in any instance: one equation for each meaning that depends on the parameters. -/
@[simp] theorem execOf_pushb (P : Params) (x : Byte) (s : State) :
    execOf P (.pushb x) s = .next (s.absorb (pushByte P s.acc x)) := rfl

@[simp] theorem execOf_push (P : Params) (chunk : List Byte) (s : State) :
    execOf P (.push chunk) s = .next (s.absorb (feed P s.acc chunk)) := rfl

@[simp] theorem execOf_frame (P : Params) (c i l h : Byte) (payload : List Byte) (a b : Byte) (s : State) :
    execOf P (.frame c i l h payload a b) s =
      .next (s.absorb (feed P s.acc (wireBytes P ([c, i, l, h] ++ payload) a b))) := rfl

theorem execOf_outrec (P : Params) (c i l h : Byte) (payload : List Byte) (s : State) :
    execOf P (.outrec c i l h payload) s =
      if (Instr.outrec c i l h payload).wellFormed P then .next (s.emit ⟨c, i, payload⟩)
      else .refused .notAnOutputRecord := rfl

/-- A port word is one of the three operations. -/
theorem decodePort_cases (w : PortWord) :
    decodePort w = .reset ∨ decodePort w = .pushb (portData w) ∨ decodePort w = .idle := by
  unfold decodePort
  split
  · exact .inl rfl
  · split
    · exact .inr (.inl rfl)
    · exact .inr (.inr rfl)

/-- The host's machine is the instance at the defaults. -/
theorem exec_eq_execOf (i : Instr) (s : State) : exec i s = execOf Config.params i s := by cases i <;> rfl

theorem step_eq_stepOf (s : State) : step s = stepOf Config.params s := by
  rw [step, stepOf, show exec = execOf Config.params from funext fun i => funext (exec_eq_execOf i)]

/-- Everything an edge can be: a quiet port, an edge that takes nothing, or one of the three operations. -/
theorem atEdge_cases (run : Instr → State → Host.Outcome State Fault Refusal) (s : State) :
    (s.input = [] ∧ atEdge run s = run .idle s) ∨
    (∃ e rest, s.input = e :: rest ∧ e.taken = false ∧ atEdge run s = .next { s with input := rest }) ∨
    (∃ e rest, s.input = e :: rest ∧ e.taken = true ∧ atEdge run s = run (decodePort e.word) { s with input := rest }) := by
  cases hi : s.input with
  | nil => exact .inl ⟨rfl, by simp [atEdge, fetch, hi]⟩
  | cons e rest =>
    cases ht : e.taken with
    | false => exact .inr (.inl ⟨e, rest, rfl, ht, by simp [atEdge, fetch, hi, ht]⟩)
    | true => exact .inr (.inr ⟨e, rest, rfl, ht, by simp [atEdge, fetch, hi, ht]⟩)

/-- `atEdge_cases` of a step of the machine. -/
theorem step_cases (s : State) :
    (s.input = [] ∧ step s = exec .idle s) ∨
    (∃ e rest, s.input = e :: rest ∧ e.taken = false ∧ step s = .next { s with input := rest }) ∨
    (∃ e rest, s.input = e :: rest ∧ e.taken = true ∧ step s = exec (decodePort e.word) { s with input := rest }) :=
  atEdge_cases exec s

/-- `atEdge_cases` of a step of any instance. -/
theorem stepOf_cases (P : Params) (s : State) :
    (s.input = [] ∧ stepOf P s = execOf P .idle s) ∨
    (∃ e rest, s.input = e :: rest ∧ e.taken = false ∧ stepOf P s = .next { s with input := rest }) ∨
    (∃ e rest, s.input = e :: rest ∧ e.taken = true ∧ stepOf P s = execOf P (decodePort e.word) { s with input := rest }) :=
  atEdge_cases (execOf P) s

end Sys2Proof.Laws
end

