-- ==== Sys2Proof/Tests/Slice0.lean ====
section
/-!
SUPPORT. Tests of the model's own, each with its source, and a witness for the hypotheses of every statement that has some.
The expected values are the spec's worked examples and vectors (95_test_vectors.md) or read off its encodings.
-/

namespace Sys2Proof.Tests

open Machine

/-- The spec's default instance. -/
abbrev P : Params := Config.params

/-- V-E1, the source's scenario 1, and its frame. -/
def rawE1 : List Byte := [0xB5, 0x62, 0xFF, 0x22, 0x00, 0x00, 0x21, 0x62]
def frameE1 : Frame := ⟨0xFF, 0x22, []⟩

/-- V-E2 and its frame. -/
def rawE2 : List Byte := [0xB5, 0x62, 0x06, 0x01, 0x03, 0x00, 0x01, 0x02, 0x03, 0x10, 0x49]
def frameE2 : Frame := ⟨0x06, 0x01, [0x01, 0x02, 0x03]⟩

/-- V-E5. -/
def rawE5 : List Byte := [0xB5, 0x62, 0x01, 0x02, 0x00, 0x00, 0x03, 0x0A]
def frameE5 : Frame := ⟨0x01, 0x02, []⟩

/-- A state with a given accumulator and nothing emitted. -/
def withAcc (acc : Memory) : State := { State.reset with acc := acc }

/-- A state with the given words at ready edges. -/
def withWords (ws : List PortWord) : State := { State.reset with input := readyEdges ws }

/-! ## Well-formedness: a well-formed term, and an ill-formed one for each check -/

theorem test_frame_wellFormed : (Instr.frame 0x06 0x01 0x03 0x00 [1, 2, 3] 0x10 0x49).wellFormed P = true := by decide
theorem test_frame_length_refused : (Instr.frame 0x06 0x01 0x02 0x00 [1, 2, 3] 0x10 0x49).wellFormed P = false := by decide
theorem test_frame_checksum_refused : (Instr.frame 0x06 0x01 0x03 0x00 [1, 2, 3] 0x10 0x48).wellFormed P = false := by decide
/-- V-E10: 505 payload bytes, length and checksum right. -/
theorem test_frame_oversize_refused :
    (Instr.frame 0x01 0x01 0xF9 0x01 (List.replicate 505 0) 0xFC 0x16).wellFormed P = false := by decide +kernel
theorem test_outrec_wellFormed : (Instr.outrec 0x06 0x01 0x03 0x00 [1, 2, 3]).wellFormed P = true := by decide
theorem test_outrec_length_refused : (Instr.outrec 0x06 0x01 0x00 0x03 [1, 2, 3]).wellFormed P = false := by decide
theorem test_outrec_oversize_refused :
    (Instr.outrec 0x01 0x01 0xF9 0x01 (List.replicate 505 0)).wellFormed P = false := by decide +kernel

/-! ## Decoding: words written out from R52, R54, R55 and R62, bit by bit -/

/-- `rst` = 1, the rest ignored. -/
theorem test_decode_reset : decodePort 0b1000000000 = .reset ∧ decodePort 0b1111111111 = .reset := by decide
/-- `rst` = 0, `in_valid` = 1, `in_data` = 1011 0101: bit 7 is the leftmost. -/
theorem test_decode_pushb : decodePort 0b0110110101 = .pushb 0b10110101 := by decide
/-- `rst` = 0, `in_valid` = 0, the rest ignored. -/
theorem test_decode_idle : decodePort 0b0000000000 = .idle ∧ decodePort 0b0011111111 = .idle := by decide
/-- `PUSH 62 FF`: two `PUSHB` words. -/
theorem test_decode_push : decodePortWords [0b0101100010, 0b0111111111] = .ok (.push [0x62, 0xFF]) := by rfl
theorem test_decode_push_and_idle : decodePortWords [0b0101100010, 0b0000000000] = .error .notOneOperation := by rfl
/-- V-E2: sync pair, class 06, id 01, length 3 low byte first, payload, checksum A 10, checksum B 49. -/
theorem test_decode_frame :
    decode P (.wire rawE2) = .ok (.frame 0x06 0x01 0x03 0x00 [0x01, 0x02, 0x03] 0x10 0x49) := by rfl
/-- V-X13. -/
theorem test_decode_frame_refused :
    decode P (.wire [0xB5, 0x62, 0xFF, 0x22, 0x00, 0x00, 0x21, 0x63]) = .error (.noFrame .badCksum) := by rfl
/-- The record of program P2. -/
theorem test_decode_outrec :
    decode P (.out [0x06, 0x01, 0x03, 0x00, 0x01, 0x02, 0x03]) = .ok (.outrec 0x06 0x01 0x03 0x00 [1, 2, 3]) := by rfl
/-- The canonical words of R52 through the host's table word. -/
theorem test_table_words :
    decodeTableWord 16 0x200 = some .reset ∧ decodeTableWord 16 0x1B5 = some (.pushb 0xB5) ∧
    decodeTableWord 16 0x000 = some .idle ∧ decodeTableWord 16 0x400 = none := by decide
/-- Six header bytes with everything after them 0: the valid frame of V-E4. -/
theorem test_table_frame : decodeTableWord 48 0x62B5 = some (.frame 0 0 0 0 [] 0 0) := by decide

/-! ## One instruction at a time -/

/-- R106's example. -/
theorem test_reset : exec .reset (withAcc [0xB5, 0x62, 0xFF, 0x22, 0x00]) = .next (withAcc []) := by rfl
/-- Program P4: `rst` with `in_valid` takes no byte. -/
theorem test_reset_drops_byte : step ({ withAcc [0xB5] with input := [⟨0x362, false⟩] }) = .next (withAcc []) := by rfl
/-- R107's example. -/
theorem test_pushb_completes :
    exec (.pushb 0x62) (withAcc [0xB5, 0x62, 0xFF, 0x22, 0x00, 0x00, 0x21]) = .next { withAcc [] with out := [frameE1] } := by
  rfl
/-- The last operation of program P3: a false candidate is rejected and releases two frames. -/
theorem test_pushb_releases_two :
    exec (.pushb 0xB5) (withAcc ([0xB5, 0x62, 0xAA, 0xBB, 0x10, 0x00] ++ rawE1 ++ rawE5 ++ [0x00])) =
      .next { withAcc [0xB5] with out := [frameE1, frameE5] } := by rfl
/-- R108's example. -/
theorem test_idle : exec .idle (withAcc [0xB5, 0x62, 0xFF]) = .next (withAcc [0xB5, 0x62, 0xFF]) := by rfl
/-- R109's example. -/
theorem test_push : exec (.push (rawE1 ++ [0xB5])) State.reset = .next { withAcc [0xB5] with out := [frameE1] } := by rfl
/-- V-D15: a false pair whose length is over the maximum, and a frame inside it. -/
theorem test_push_false_pair :
    exec (.push ([0xB5, 0x62] ++ rawE1)) State.reset = .next { withAcc [] with out := [frameE1] } := by rfl
/-- V-D14: a sync pair in the payload is payload. -/
theorem test_frame :
    exec (.frame 0x01 0x02 0x02 0x00 [0xB5, 0x62] 0x1C 0xE4) State.reset =
      .next { withAcc [] with out := [⟨0x01, 0x02, [0xB5, 0x62]⟩] } := by rfl
/-- V-D11: the checksum does not match, the bytes are noise. -/
theorem test_frame_rejected : exec (.frame 0xFF 0x22 0x00 0x00 [] 0x21 0x63) State.reset = .next (withAcc []) := by rfl
/-- R62 on program P1: the record `FF 22 00 00`, first and last byte marked. -/
theorem test_outrec :
    exec (.outrec 0xFF 0x22 0x00 0x00 []) State.reset = .next (State.reset.emit frameE1) ∧
    (State.reset.emit frameE1).outPort =
      [⟨0xFF, true, false⟩, ⟨0x22, false, false⟩, ⟨0x00, false, false⟩, ⟨0x00, false, true⟩] := ⟨rfl, by decide⟩
/-- The host's first question: the word placed is the one the next step runs. -/
theorem test_withFetchWord : step (State.reset.withFetchWord 16 0x1B5) = .next (withAcc [0xB5]) := by rfl

/-! ## The functions, on the spec's vectors -/

/-- V-C9, V-C5, V-C19. -/
theorem test_cksum : cksum [0x06, 0x01, 0x03, 0x00, 0x01, 0x02, 0x03] = ⟨0x10, 0x49⟩ ∧ cksum [0xFF, 0xFF] = ⟨0xFE, 0xFD⟩ ∧
    ckStep ⟨0xFF, 0xFF⟩ 0x22 = ⟨0x21, 0x20⟩ := by decide
/-- V-E6. -/
theorem test_encode : rawFrame P ⟨0xB5, 0x62, [0xB5]⟩ = [0xB5, 0x62, 0xB5, 0x62, 0x01, 0x00, 0xB5, 0xCD, 0xC9] := by decide
/-- V-X7, V-X9, V-X10, V-X14. -/
theorem test_decode_reasons :
    decodeFrame P [0xB6, 0x62, 0xFF, 0x22] = .noFrame .tooShort ∧
    decodeFrame P [0xB5, 0x63, 0xFF, 0x22, 0, 0, 0x21, 0x62] = .noFrame .badSync ∧
    decodeFrame P [0xB5, 0x62, 0xFF, 0x22, 1, 0, 0x21, 0x62] = .noFrame .lenMismatch ∧
    decodeFrame P [0xB5, 0x62, 0xFF, 0x22, 0, 0, 0x20, 0x62] = .noFrame .badCksum := by decide
/-- V-T1, V-T2, V-T9, V-T10. -/
theorem test_scan :
    findSync P [0x00, 0xB5, 0x11, 0x62, 0xB5, 0x62, 0x06] = some 4 ∧ findSync P [0xB5, 0xB5, 0x62] = some 1 ∧
    trim P [0x00, 0xB5, 0x11, 0x62, 0xB5] = [0xB5] ∧
    trim P [0x00, 0xB5, 0x11, 0x62, 0xB5, 0x62, 0x06] = [0xB5, 0x62, 0x06] := by decide
/-- V-K4, V-K6, V-K7, V-K9. -/
theorem test_classify :
    classify P (rawE1 ++ [0xB5]) = .accept frameE1 8 ∧ classify P [0xB5, 0x62, 0x01, 0x01, 0xF8, 0x01] = .wait ∧
    classify P [0xB5, 0x62, 0x01, 0x01, 0xF9, 0x01] = .reject .lenOverMax ∧
    classify P [0xB5, 0x62, 0x01, 0x01, 0xF9] = .wait := by decide
/-- R22: the same four bytes complete a frame, or after `RESET` do not. -/
theorem test_hidden_state :
    feed P [0xB5, 0x62, 0xFF, 0x22] [0, 0, 0x21, 0x62] = ([frameE1], []) ∧ feed P [] [0, 0, 0x21, 0x62] = ([], []) := by decide

/-- R5: another instance, sync pair `AA 55`, `MAXPAY` 4, executes the same operations with its own values. -/
abbrev smallBlock : Params := { sync0 := 0xAA, sync1 := 0x55, maxpay := 4, cap := 12 }
theorem test_other_instance :
    execOf smallBlock (.push [0xAA, 0x55, 0xFF, 0x22, 0x00, 0x00, 0x21, 0x62, 0xAA]) State.reset =
      .next { withAcc [0xAA] with out := [frameE1] } ∧
    classify smallBlock [0xAA, 0x55, 1, 1, 5, 0] = .reject .lenOverMax := ⟨rfl, by decide⟩

/-! ## Witnesses: the hypotheses of each statement, met together -/

/-- The phases of R116 with the values at the edges of their clauses: 504 is `F8 01`, 505 is `F9 01`. -/
theorem witness_phase_hunt : P.Distinct ∧ AccInv P [] ∧ phase [] = .hunt := by decide
theorem witness_phase_sync1 : P.Distinct ∧ AccInv P [0xB5] ∧ phase [0xB5] = .sync1 := by decide
theorem witness_phase_header_short : AccInv P [0xB5, 0x62, 1, 1] ∧ phase [0xB5, 0x62, 1, 1] = .header ∧
    [0xB5, 0x62, 1, (1 : Byte)].length < 5 := by decide
theorem witness_phase_header_fits : AccInv P [0xB5, 0x62, 1, 1, 0xF8] ∧ phase [0xB5, 0x62, 1, 1, 0xF8] = .header ∧
    [0xB5, 0x62, 1, 1, (0xF8 : Byte)][4]? = some 0xF8 ∧ lenOf 0xF8 0x01 ≤ P.maxpay := by decide
theorem witness_phase_header_over : AccInv P [0xB5, 0x62, 1, 1, 0xF9] ∧ phase [0xB5, 0x62, 1, 1, 0xF9] = .header ∧
    [0xB5, 0x62, 1, 1, (0xF9 : Byte)][4]? = some 0xF9 ∧ P.maxpay < lenOf 0xF9 0x01 := by decide
theorem witness_phase_body_waits : AccInv P (rawE1.take 6) ∧ phase (rawE1.take 6) = .body ∧
    (rawE1.take 6)[4]? = some 0 ∧ (rawE1.take 6)[5]? = some 0 ∧ (rawE1.take 6).length + 1 < lenOf 0 0 + 8 := by decide
theorem witness_phase_body_accepts : AccInv P (rawE1.take 7) ∧ phase (rawE1.take 7) = .body ∧
    (rawE1.take 7)[2]? = some 0xFF ∧ (rawE1.take 7)[3]? = some 0x22 ∧ (rawE1.take 7)[4]? = some 0 ∧
    (rawE1.take 7)[5]? = some 0 ∧ (rawE1.take 7).length + 1 = lenOf 0 0 + 8 ∧
    ChecksumMatches (rawE1.take 7 ++ [0x62]) (lenOf 0 0) := by decide
theorem witness_phase_body_rejects : AccInv P (rawE1.take 7) ∧ phase (rawE1.take 7) = .body ∧
    (rawE1.take 7)[4]? = some 0 ∧ (rawE1.take 7)[5]? = some 0 ∧ (rawE1.take 7).length + 1 = lenOf 0 0 + 8 ∧
    ¬ ChecksumMatches (rawE1.take 7 ++ [0x63]) (lenOf 0 0) := by decide

theorem witness_deliveredBytes : deliveredBytes P (.pushb 0x62) = some [0x62] ∧ deliveredBytes P (.push [1, 2]) = some [1, 2] ∧
    deliveredBytes P (.frame 0xFF 0x22 0 0 [] 0x21 0x62) = some rawE1 := by decide
theorem witness_frame_arrives : (Instr.frame 0xFF 0x22 0 0 [] 0x21 0x62).wellFormed P = true ∧
    phase State.reset.acc = .hunt := by decide
theorem witness_taken : (withWords [0x162]).input = ⟨0x162, true⟩ :: [] ∧ Edge.taken ⟨0x162, true⟩ = true ∧
    State.reset.input = [] := by decide
theorem witness_reset_has_priority : portRst 0x3B5 = true ∧ Edge.taken ⟨0x3B5, false⟩ = true := by decide
theorem witness_busy : portRst 0x1B5 = false ∧ Edge.taken ⟨0x1B5, false⟩ = false := by decide
theorem witness_held : heldSteady [⟨0x1B5, false⟩, ⟨0x1B5, true⟩] = true ∧ decodePort 0x1B5 = .pushb 0xB5 ∧
    portRst 0x1B5 = false := by decide
theorem witness_history_extended : step (withWords [0x162]) = .next State.reset := by rfl
theorem witness_history_restarts : step ({ withWords [0x200] with out := [frameE1] }) = .next State.reset ∧
    portRst 0x200 = true := ⟨rfl, by decide⟩
theorem witness_run_segments : beginsWithReset [0x200, 0x1B5] = true ∧ decodePort 0x200 = .reset ∧
    beginsWithReset [0x1B5, 0x200] = false := by decide
theorem witness_instance_wellFormed : (Instr.frame 0xFF 0x22 0 0 [] 0x21 0x62).wellFormed smallBlock = true ∧
    (Instr.outrec 1 2 4 0 [1, 2, 3, 4]).wellFormed smallBlock = true := by decide
theorem witness_instance_invariant : smallBlock.Ok ∧ StateInv smallBlock (withAcc [0xAA, 0x55]) := by decide
theorem witness_two_instances : (0 : Fin 2) ≠ 1 := by decide

theorem witness_decode_accepts_wire : decode P (.wire rawE1) = .ok (.frame 0xFF 0x22 0 0 [] 0x21 0x62) := by rfl
theorem witness_decode_accepts_out : decode P (.out [1, 2, 0, 0]) = .ok (.outrec 1 2 0 0 []) := by rfl
theorem witness_record_beats : ∀ f ∈ [frameE1, frameE2], f.payload.length ≤ 65535 := by decide
theorem witness_beat_first : (recordBeats frameE2)[0]? = some ⟨0x06, true, false⟩ := by decide
theorem witness_beat_last : (recordBeats frameE2)[6]? = some ⟨0x03, false, true⟩ := by decide

theorem witness_byte_change : [0x10, 0x20, 0x30, (0x40 : Byte)][1]? = some 0x20 ∧ (0x21 : Byte) ≠ 0x20 := by decide
/-- V-C16: weight `300 - 44 = 256`. -/
theorem witness_weight_256 : 44 < (List.replicate 300 (0 : Byte)).length ∧
    ((List.replicate 300 (0 : Byte)).length - 44) % 256 = 0 := by
  rw [List.length_replicate]; decide
/-- V-C17: `d = 80`, distance 2. -/
theorem witness_two_byte_change : (0 : Nat) < 2 ∧ 2 < [0x10, 0x20, 0x30, (0x40 : Byte)].length ∧
    (0x80 : Byte).toNat * (2 - 0) % 256 = 0 := by decide
theorem witness_encode_domain : frameE2.payload.length ≤ 65535 ∧
    65535 < (Frame.mk 0 0 (List.replicate 65536 0)).payload.length := 
  ⟨by decide, by show 65535 < (List.replicate 65536 (0 : Byte)).length; rw [List.length_replicate]; omega⟩
theorem witness_decode_frame : decodeFrame P rawE2 = .frame frameE2 := by decide
theorem witness_decode_succeeds : rawE1[2]? = some 0xFF ∧ rawE1[3]? = some 0x22 ∧ StartsWithSync P rawE1 ∧
    lenOf 0 0 + 8 = rawE1.length ∧ ChecksumMatches rawE1 (lenOf 0 0) := by decide
theorem witness_reordered : [0x80, (0x01 : Byte)].Perm [0x01, 0x80] := List.Perm.swap ..
theorem witness_length_bytes : rawE1[4]? = some 0 ∧ rawE1[5]? = some 0 := by decide
/-- V-S1: bytes 1, 4, 5 and 7, on both sides of each clause. -/
theorem witness_bit_flips :
    decodeFrame P (flipBit rawE1 1 7) = .noFrame .badSync ∧ decodeFrame P (flipBit rawE1 2 0) = .noFrame .badCksum ∧
    decodeFrame P (flipBit rawE1 3 5) = .noFrame .badCksum ∧ decodeFrame P (flipBit rawE1 4 0) = .noFrame .lenMismatch ∧
    decodeFrame P (flipBit rawE1 5 0) = .noFrame .lenMismatch ∧ decodeFrame P (flipBit rawE1 7 7) = .noFrame .badCksum := by
  decide

theorem witness_memory_reads : 1 + 2 ≤ [0xB5, 0x62, (0xFF : Byte)].length ∧ [0xB5, 0x62, (0xFF : Byte)].length < 1 + 3 ∧
    3 ≤ [0xB5, 0x62, (0xFF : Byte)].length := by decide
theorem witness_first_pair : PairAt P [0xB5, 0xB5, 0x62] 1 ∧ ∀ q, q < 1 → ¬ PairAt P [0xB5, 0xB5, 0x62] q := by decide
theorem witness_no_pair : findSync P [0x62, 0xB5] = none := by decide
theorem witness_trim_sync : 2 ≤ (trim P [0x00, 0xB5, 0x62]).length := by decide
theorem witness_classify_short : StartsWithSync P [0xB5, 0x62, 1, 1, 0xF9] ∧
    [0xB5, 0x62, 1, 1, (0xF9 : Byte)].length < 6 := by decide
theorem witness_classify_over : StartsWithSync P [0xB5, 0x62, 1, 1, 0xF9, 1] ∧ P.maxpay < lenOf 0xF9 1 := by decide
theorem witness_classify_waits : StartsWithSync P [0xB5, 0x62, 1, 1, 0xF8, 1] ∧ lenOf 0xF8 1 ≤ P.maxpay ∧
    [0xB5, 0x62, 1, 1, 0xF8, (1 : Byte)].length < lenOf 0xF8 1 + 8 := by decide
theorem witness_classify_decides : StartsWithSync P rawE1 ∧ lenOf 0 0 + 8 ≤ rawE1.length ∧
    decodeFrame P (rawE1.take 8) = .frame frameE1 ∧
    decodeFrame P [0xB5, 0x62, 0xFF, 0x22, 0, 0, 0x21, 0x63] = .noFrame .badCksum := by decide
theorem witness_decided : classify P rawE1 ≠ .wait := by decide
theorem witness_accept : StartsWithSync P rawE1 ∧ classify P rawE1 = .accept frameE1 8 := by decide
theorem witness_reject : StartsWithSync P [0xB5, 0x62, 1, 1, 0xF9, 1] ∧
    classify P [0xB5, 0x62, 1, 1, 0xF9, 1] = .reject .lenOverMax := by decide
theorem witness_wait : StartsWithSync P [0xB5, 0x62] ∧ classify P [0xB5, 0x62] = .wait := by decide
theorem witness_params : P.Ok ∧ P.Distinct := by decide
theorem witness_accumulator : P.Ok ∧ AccInv P (rawE1.take 7) := by decide
theorem witness_step_keeps : StateInv P (withWords [0x162]) ∧ step (withWords [0x162]) = .next State.reset :=
  ⟨by decide, rfl⟩
/-- V-D13 in three chunks. -/
theorem witness_resynchronisation : frameE1.payload.length ≤ P.maxpay ∧ NoPair P [0xDE, 0xAD] ∧ NoPair P [0xBE, 0xB5] ∧
    [[0xDE], [0xAD] ++ rawE1.take 3, rawE1.drop 3 ++ [0xBE, 0xB5]].flatten = [0xDE, 0xAD] ++ rawFrame P frameE1 ++ [0xBE, 0xB5] ∧
    State.reset.acc = [] := by decide
theorem witness_last_byte : P.Ok ∧ frameE2.payload.length ≤ P.maxpay := by decide
theorem witness_nothing_rejected : AccInv P (rawE1.take 7) ∧ ∀ r, classify P (rawE1.take 7 ++ [0x62]) ≠ .reject r :=
  ⟨by decide, fun r => by rw [show classify P (rawE1.take 7 ++ [0x62]) = .accept frameE1 8 from by decide]; exact nofun⟩
theorem witness_operation_rejects_length : AccInv P [0xB5, 0x62, 1, 1, 0xF9] ∧
    classify P ([0xB5, 0x62, 1, 1, 0xF9] ++ [1]) = .reject .lenOverMax := by decide
/-- V-D15. -/
theorem witness_frame_inside : P.Distinct ∧ P.Ok ∧ StartsWithSync P ([0xB5, 0x62] ++ rawE1) ∧
    classify P ([0xB5, 0x62] ++ rawE1) = .reject .lenOverMax ∧
    [0xB5, 0x62] ++ rawE1 = [0xB5, 0x62] ++ rawFrame P frameE1 ++ [] ∧ NoPair P ([0xB5, (0x62 : Byte)].drop 1) ∧
    frameE1.payload.length ≤ P.maxpay := by decide
theorem witness_literal : ∀ f ∈ (drain { P with maxpay := 65535 } (rawE1 ++ rawE5)).1, f.payload.length ≤ P.maxpay := by decide

end Sys2Proof.Tests
end

/-! Shared laws: the length field, the output record, and the beats of the output port (R57, R62). -/

namespace Sys2Proof.Laws

open Machine

@[simp] theorem lenLo_lenOf (l h : Byte) : lenLo (lenOf l h) = l := by
  apply BitVec.eq_of_toNat_eq
  have hl := l.isLt
  simp only [lenLo, lenOf, BitVec.toNat_ofNat]
  omega

@[simp] theorem lenHi_lenOf (l h : Byte) : lenHi (lenOf l h) = h := by
  apply BitVec.eq_of_toNat_eq
  have hl := l.isLt
  have hh := h.isLt
  simp only [lenHi, lenOf, BitVec.toNat_ofNat]
  omega

theorem lengthDeclared_iff (l h : Byte) (payload : List Byte) :
    lengthDeclared l h payload = true ↔ lenOf l h = payload.length := by
  simp [lengthDeclared]

/-- Where the length bytes declare the payload's length, the record is the fields as they stand (R62). -/
theorem outRec_of_lengthDeclared {l h : Byte} {payload : List Byte} (hd : lengthDeclared l h payload = true)
    (c i : Byte) : outRec ⟨c, i, payload⟩ = c :: i :: l :: h :: payload := by
  simp [outRec, frameBody, ← (lengthDeclared_iff l h payload).mp hd]

@[simp] theorem tailBeats_outData (s : List Byte) : (tailBeats s).map OutBeat.outData = s := by
  fun_induction tailBeats s with
  | case1 => rfl
  | case2 x => rfl
  | case3 x y rest ih => rw [List.map_cons, ih]

/-- The beats of a record carry its bytes, in order (R62). -/
@[simp] theorem recordBeats_outData (f : Frame) : (recordBeats f).map OutBeat.outData = outRec f := by
  unfold recordBeats
  cases outRec f with
  | nil => rfl
  | cons c rest => simp

/-- `emit` puts the beats of the frame's record after those already sent. -/
@[simp] theorem emit_outPort (s : State) (f : Frame) : (s.emit f).outPort = s.outPort ++ recordBeats f := by
  simp [State.outPort, outBeats]

end Sys2Proof.Laws

/-! Shared laws: everything `Decode`, `Classify`, `Trim` and `Drain` can answer, as far as the invariant of R16 and R114 needs it. -/

namespace Sys2Proof.Laws

open Machine

variable {P : Params}

/-- Every way trimming can go, as the shape of what it keeps (R102). -/
theorem trim_shape (P : Params) (s : Memory) :
    StartsWithSync P (trim P s) ∨ trim P s = [P.sync0] ∨ trim P s = [] := by
  obtain ⟨p, hp, ht⟩ | ⟨-, -, ht⟩ | ⟨-, -, ht⟩ := trim_cases P s
  · exact .inl (by rw [StartsWithSync, ht]; exact findSync_some hp)
  · exact .inr (.inl ht)
  · exact .inr (.inr ht)

theorem two_le_length_of_startsWithSync {s : List Byte} (h : StartsWithSync P s) : 2 ≤ s.length := by
  have hlen := congrArg List.length h
  simp only [List.length_take, List.length_cons, List.length_nil] at hlen
  omega

/-- A frame that `Decode` answers fills the bytes it was read from (R82, third check). -/
theorem length_of_decodeFrame {s : List Byte} {f : Frame} (h : decodeFrame P s = .frame f) :
    s.length = f.payload.length + overhead := by
  unfold decodeFrame at h
  split at h
  · cases h
  · split at h
    · rename_i c i lo hi rest _
      split at h
      · cases h
      · split at h
        · cases h
        · rename_i hlen
          dsimp only at h
          split at h
          · cases h
          · obtain rfl := DecodeResult.frame.inj h
            simp only [slice, List.length_drop, List.length_take, hdr, overhead] at *
            omega
    · cases h

/-- Everything `Classify` can answer, with the test that decided it (R103, R134). -/
theorem classify_cases (P : Params) (s : Memory) :
    (s.length < hdr ∧ classify P s = .wait) ∨
    ∃ lo hi, s[4]? = some lo ∧ s[5]? = some hi ∧
      ((P.maxpay < lenOf lo hi ∧ classify P s = .reject .lenOverMax) ∨
       (lenOf lo hi ≤ P.maxpay ∧ s.length < lenOf lo hi + overhead ∧ classify P s = .wait) ∨
       (lenOf lo hi ≤ P.maxpay ∧ lenOf lo hi + overhead ≤ s.length ∧
         ((∃ f, decodeFrame P (s.take (lenOf lo hi + overhead)) = .frame f ∧
             classify P s = .accept f (lenOf lo hi + overhead)) ∨
          (∃ r, decodeFrame P (s.take (lenOf lo hi + overhead)) = .noFrame r ∧
             classify P s = .reject .badCksum)))) := by
  match s with
  | [] | [_] | [_, _] | [_, _, _] | [_, _, _, _] | [_, _, _, _, _] => exact .inl ⟨by simp [hdr], rfl⟩
  | x0 :: x1 :: x2 :: x3 :: lo :: hi :: rest =>
    refine .inr ⟨lo, hi, rfl, rfl, ?_⟩
    rw [classify]
    by_cases hmax : P.maxpay < lenOf lo hi
    · exact .inl ⟨hmax, if_pos hmax⟩
    · by_cases hshort : (x0 :: x1 :: x2 :: x3 :: lo :: hi :: rest).length < lenOf lo hi + overhead
      · exact .inr (.inl ⟨Nat.le_of_not_lt hmax, hshort, by rw [if_neg hmax, if_pos hshort]⟩)
      · refine .inr (.inr ⟨Nat.le_of_not_lt hmax, Nat.le_of_not_lt hshort, ?_⟩)
        rw [if_neg hmax, if_neg hshort]
        cases hd : decodeFrame P ((x0 :: x1 :: x2 :: x3 :: lo :: hi :: rest).take (lenOf lo hi + overhead)) with
        | frame f => exact .inl ⟨f, rfl, rfl⟩
        | noFrame r => exact .inr ⟨r, rfl, rfl⟩

/-- An accepted frame is valid and takes the bytes of its raw form (R103, R104). -/
theorem classify_accept_valid {s : Memory} {f : Frame} {n : Nat} (h : classify P s = .accept f n) :
    n = f.payload.length + overhead ∧ f.payload.length ≤ P.maxpay := by
  obtain ⟨-, hc⟩ | ⟨lo, hi, -, -, ⟨-, hc⟩ | ⟨-, -, hc⟩ | ⟨hmax, hlong, ⟨g, hd, hc⟩ | ⟨r, -, hc⟩⟩⟩ := classify_cases P s
  case inr.inr.inr.inl =>
    obtain ⟨rfl, rfl⟩ := Verdict.accept.inj (hc.symm.trans h)
    have hlen := length_of_decodeFrame hd
    rw [List.length_take] at hlen
    omega
  all_goals rw [hc] at h; cases h

/-- A candidate that waits is shorter than the longest raw frame (R16, R111). -/
theorem length_lt_of_classify_wait {s : Memory} (h : classify P s = .wait) : s.length < P.maxFrame := by
  obtain ⟨hshort, -⟩ | ⟨lo, hi, -, -, ⟨-, hc⟩ | ⟨hmax, hshort, -⟩ | ⟨-, -, ⟨g, -, hc⟩ | ⟨r, -, hc⟩⟩⟩ := classify_cases P s
  · exact Nat.lt_of_lt_of_le hshort (by simp only [hdr, Params.maxFrame, overhead]; omega)
  · rw [hc] at h; cases h
  · exact Nat.lt_of_lt_of_le hshort (Nat.add_le_add_right hmax _)
  · rw [hc] at h; cases h
  · rw [hc] at h; cases h

/-- The bound of R111: between operations the accumulator is one byte short of a longest frame at most. -/
theorem length_lt_of_accInv {acc : Memory} (h : AccInv P acc) : acc.length < P.maxFrame := by
  obtain rfl | rfl | ⟨-, -, hwait⟩ := h
  · simp
  · simp [Params.maxFrame, overhead]
  · exact length_lt_of_classify_wait hwait

/-- Whatever it is given, `Drain` keeps a tail of the shape of R16 and answers valid frames only (R114). -/
theorem drain_inv (P : Params) (s : Memory) :
    AccInv P (drain P s).2 ∧ ∀ f ∈ (drain P s).1, f.payload.length ≤ P.maxpay := by
  have hle := length_trim_le P s
  rw [drain_unfold]
  obtain hsync | ht | ht := trim_shape P s
  · have h2 := two_le_length_of_startsWithSync hsync
    rw [if_neg (Nat.not_lt.mpr h2)]
    cases hc : classify P (trim P s) with
    | wait => exact ⟨.inr (.inr ⟨h2, hsync, hc⟩), nofun⟩
    | accept f n =>
      obtain ⟨hn, hf⟩ := classify_accept_valid hc
      obtain ⟨hacc, hout⟩ := drain_inv P ((trim P s).drop n)
      exact ⟨hacc, List.forall_mem_cons.mpr ⟨hf, hout⟩⟩
    | reject r => exact drain_inv P ((trim P s).drop 1)
  · simp [ht, AccInv]
  · simp [ht, AccInv]
termination_by s.length
decreasing_by all_goals simp only [List.length_drop, overhead] at *; omega

end Sys2Proof.Laws

/-! Shared laws: a well-formed instruction as one state update, an edge as one state update, and runs. -/

namespace Sys2Proof.Laws

open Machine

variable {P : Params}

@[simp] theorem execOf_reset (P : Params) (s : State) : execOf P .reset s = .next { s with acc := [], out := [] } := rfl
@[simp] theorem execOf_idle (P : Params) (s : State) : execOf P .idle s = .next s := rfl

/-- The transaction-level function of R9 on a state: the accumulator it leaves, the history restarted by `RESET` and extended
by its frames. -/
def opState (P : Params) (i : Instr) (s : State) : State :=
  { s with acc := (opStep P i s.acc).2, out := (if i = .reset then [] else s.out) ++ (opStep P i s.acc).1 }

/-- A well-formed instruction is executed as the transaction-level function says (R9). -/
theorem execOf_wellFormed {i : Instr} (hw : i.wellFormed P = true) (s : State) : execOf P i s = .next (opState P i s) := by
  cases i with
  | reset => simp [opState, opStep]
  | pushb x => simp [opState, opStep, absorb_eq]
  | idle => simp [opState, opStep]
  | push chunk => simp [opState, opStep, absorb_eq]
  | frame c i l h payload a b => simp [opState, opStep, absorb_eq]
  | outrec c i l h payload => simp [execOf_outrec, hw, opState, opStep, State.emit]

@[simp] theorem decodePort_wellFormed (P : Params) (w : PortWord) : (decodePort w).wellFormed P = true := by
  obtain h | h | h := decodePort_cases w <;> rw [h] <;> rfl

/-- The operation of a port word keeps the invariant: only `PUSHB` touches the accumulator without emptying it. -/
theorem opState_decodePort_inv {s : State} (w : PortWord) (h : StateInv P s) : StateInv P (opState P (decodePort w) s) := by
  obtain ⟨hacc, hout⟩ := h
  obtain hw | hw | hw := decodePort_cases w
  · simp [hw, opState, opStep, StateInv, AccInv]
  · obtain ⟨hacc', hout'⟩ := drain_inv P (s.acc ++ [portData w])
    simp only [hw, opState, opStep, pushByte, append_eq, reduceCtorEq, if_false]
    exact ⟨hacc', List.forall_mem_append.mpr ⟨hout, hout'⟩⟩
  · simpa [hw, opState, opStep] using ⟨hacc, hout⟩

/-- One edge that the environment lists, as a state update: a taken word acts, a busy edge only passes (R51). -/
theorem stepOf_cons {s : State} {e : Edge} {rest : List Edge} (h : s.input = e :: rest) :
    stepOf P s = .next { (if e.taken then opState P (decodePort e.word) s else s) with input := rest } := by
  obtain ⟨hi, -⟩ | ⟨e', rest', hi, ht, hs⟩ | ⟨e', rest', hi, ht, hs⟩ := stepOf_cases P s <;> rw [h] at hi
  · cases hi
  · obtain ⟨rfl, rfl⟩ := List.cons.inj hi
    simp [hs, ht]
  · obtain ⟨rfl, rfl⟩ := List.cons.inj hi
    simp [hs, ht, execOf_wellFormed, opState]

theorem stepOf_nil {s : State} (h : s.input = []) : stepOf P s = .next s := by
  obtain ⟨-, hs⟩ | ⟨e, rest, hi, -⟩ | ⟨e, rest, hi, -⟩ := stepOf_cases P s
  · exact hs.trans (execOf_idle P s)
  all_goals rw [h] at hi; cases hi

/-- With any parameters, every step answers a next state and keeps the invariant (R16, R114, R130). -/
theorem stepOf_keeps_inv {s : State} (h : StateInv P s) : ∃ t, stepOf P s = .next t ∧ StateInv P t := by
  cases hi : s.input with
  | nil => exact ⟨s, stepOf_nil hi, h⟩
  | cons e rest =>
    refine ⟨_, stepOf_cons hi, ?_⟩
    split
    · exact opState_decodePort_inv e.word h
    · exact h

theorem run_succ_of_next {M : Host.Core} {s t : M.State} (n : Nat) (h : M.step s = .next t) :
    M.run (n + 1) s = M.run n t := by
  rw [Host.Core.run, h]

/-- What every step keeps and lets go on, a run of any length keeps and lets go on. -/
theorem run_keeps {M : Host.Core} {Inv : M.State → Prop} (hstep : ∀ s, Inv s → ∃ t, M.step s = .next t ∧ Inv t)
    (n : Nat) {s : M.State} (h : Inv s) : ∃ t, M.run n s = .next t ∧ Inv t := by
  induction n generalizing s with
  | zero => exact ⟨s, rfl, h⟩
  | succ n ih =>
    obtain ⟨t, hs, ht⟩ := hstep s h
    rw [run_succ_of_next n hs]
    exact ih ht

theorem takenWords_cons (e : Edge) (es : List Edge) :
    takenWords (e :: es) = if e.taken then e.word :: takenWords es else takenWords es := by
  cases h : e.taken <;> simp [takenWords, h]

theorem outOfRun_cons (P : Params) (s : State) (w : PortWord) (ws : List PortWord) :
    outOfRun P s.out s.acc (w :: ws) =
      outOfRun P (opState P (decodePort w) s).out (opState P (decodePort w) s).acc ws := rfl

/-- A run through all the listed edges leaves the history of the taken words (R9, R51). -/
theorem run_blockOf_input (P : Params) (es : List Edge) {s : State} (h : s.input = es) :
    ∃ t : State, Host.Core.run (blockOf P) es.length s = .next t ∧ t.input = [] ∧
      t.out = outOfRun P s.out s.acc (takenWords es) := by
  induction es generalizing s with
  | nil => exact ⟨s, rfl, h, rfl⟩
  | cons e rest ih =>
    obtain ⟨t, hrun, hin, hout⟩ :=
      ih (s := { (if e.taken then opState P (decodePort e.word) s else s) with input := rest }) rfl
    refine ⟨t, (run_succ_of_next (M := blockOf P) _ (stepOf_cons h)).trans hrun, hin, hout.trans ?_⟩
    rw [takenWords_cons]
    split
    · exact (outOfRun_cons ..).symm
    · rfl

/-- The host's machine runs as the block with the default parameters (log entry 1). -/
theorem run_core (n : Nat) (s : State) : Host.Core.run core n s = Host.Core.run (blockOf Config.params) n s := by
  change Host.Core.run ⟨State, Fault, Refusal, step, State.reset⟩ n s = _
  rw [show step = stepOf Config.params from funext step_eq_stepOf]
  rfl

end Sys2Proof.Laws

/-! The statements of 00_scope.md. -/

namespace Sys2Proof

open Machine Laws

/-- Settles O10: `exec_outrec` is `emit` exactly on the well-formed terms, and `emit` sends the record's bytes. -/
theorem outrecSendsItsRecord : Obligations.OutrecSendsItsRecord := by
  intro c i l h payload s
  refine ⟨fun hw => ?_, fun hw => ?_⟩
  · obtain ⟨hd, -⟩ : lengthDeclared l h payload = true ∧ _ := by simpa [Instr.wellFormed] using hw
    exact ⟨s.emit ⟨c, i, payload⟩, recordBeats ⟨c, i, payload⟩, by rw [exec_outrec, if_pos hw], emit_out .., emit_outPort ..,
      (recordBeats_outData _).trans (outRec_of_lengthDeclared hd c i), emit_acc .., emit_input ..⟩
  · rw [exec_outrec, hw]; rfl

/-- Settles O51, by induction on the edges in `run_blockOf_input`. -/
theorem instanceRunsAreTheirTakenWords : Obligations.InstanceRunsAreTheirTakenWords :=
  fun P _ => run_blockOf_input P _ rfl

/-- Settles O15: the host's machine is the block of O51 at the default parameters. -/
theorem runIsTheRunOfTheTakenWords : Obligations.RunIsTheRunOfTheTakenWords := by
  intro s
  rw [run_core]
  exact instanceRunsAreTheirTakenWords Config.params s

/-- Settles O52: every step keeps the invariant, and the invariant bounds the accumulator. -/
theorem instanceRunsKeepTheInvariant : Obligations.InstanceRunsKeepTheInvariant := by
  intro P n s hok hinv
  obtain ⟨-, hcap⟩ := hok
  obtain ⟨t, hrun, hacc, hout⟩ := run_keeps (M := blockOf P) (Inv := StateInv P) (fun _ => stepOf_keeps_inv) n hinv
  have hlen : t.acc.length < P.maxFrame := length_lt_of_accInv hacc
  exact ⟨t, hrun, ⟨hacc, hout⟩, Nat.le_of_lt_succ hlen, fun x => wf_append x (Nat.lt_of_lt_of_le hlen hcap)⟩

/-- Settles O49: the values are those of `Config.params`, and the two machines agree by `exec_eq_execOf` and `step_eq_stepOf`. -/
theorem defaultsAreTheHostsMachine : Obligations.DefaultsAreTheHostsMachine :=
  ⟨by decide, by decide, exec_eq_execOf, step_eq_stepOf, fun _ _ => rfl⟩

/-- Settles O50, one case for each row of the table in `execOf_wellFormed`. -/
theorem instancesExecuteTheirStepFunction : Obligations.InstancesExecuteTheirStepFunction :=
  fun _ _ s hw => execOf_wellFormed hw s

end Sys2Proof

/-! Shared laws: the phase by the accumulator's length (R17), the shapes of R16 at each length, and the reset bit of a port word (R51). -/

namespace Sys2Proof.Laws

open Machine

variable {P : Params}

theorem phase_of_two_le {acc : Memory} (h : 2 ≤ acc.length) : phase acc = if acc.length < hdr then .header else .body := by
  match acc with
  | [] | [_] => simp at h
  | _ :: _ :: _ => rfl

theorem phase_eq_hunt_iff (acc : Memory) : phase acc = .hunt ↔ acc = [] := by
  match acc with
  | [] | [_] => simp [phase]
  | _ :: _ :: _ => rw [phase_of_two_le (by simp)]; split <;> simp

theorem phase_eq_sync1_iff (acc : Memory) : phase acc = .sync1 ↔ acc.length = 1 := by
  match acc with
  | [] | [_] => simp [phase]
  | _ :: _ :: _ => rw [phase_of_two_le (by simp)]; split <;> simp

theorem phase_eq_header_iff (acc : Memory) : phase acc = .header ↔ 2 ≤ acc.length ∧ acc.length < hdr := by
  match acc with
  | [] | [_] => simp [phase]
  | _ :: _ :: _ => rw [phase_of_two_le (by simp)]; simp

theorem phase_eq_body_iff (acc : Memory) : phase acc = .body ↔ hdr ≤ acc.length := by
  match acc with
  | [] | [_] => simp [phase]
  | _ :: _ :: _ => rw [phase_of_two_le (by simp)]; simp

/-- Between operations a lone byte is `SYNC0`. -/
theorem eq_sync0_of_accInv {acc : Memory} (h : AccInv P acc) (h1 : acc.length = 1) : acc = [P.sync0] := by
  obtain rfl | rfl | ⟨h2, -, -⟩ := h
  · cases h1
  · rfl
  · omega

/-- Between operations two bytes or more are a candidate that waits. -/
theorem candidate_of_accInv {acc : Memory} (h : AccInv P acc) (h2 : 2 ≤ acc.length) :
    StartsWithSync P acc ∧ classify P acc = .wait := by
  obtain rfl | rfl | ⟨-, hsync, hwait⟩ := h
  · simp at h2
  · simp at h2
  · exact ⟨hsync, hwait⟩

/-- A candidate that waits with its header present declares a length it has not reached (R103). -/
theorem declared_of_classify_wait {s : Memory} (hw : classify P s = .wait) (h6 : hdr ≤ s.length) :
    ∃ lo hi, s[4]? = some lo ∧ s[5]? = some hi ∧ lenOf lo hi ≤ P.maxpay ∧ s.length < lenOf lo hi + overhead := by
  obtain ⟨hshort, -⟩ | ⟨lo, hi, hlo, hhi, ⟨-, hc⟩ | ⟨hmax, hshort, -⟩ | ⟨-, -, ⟨f, -, hc⟩ | ⟨r, -, hc⟩⟩⟩ := classify_cases P s
  case inr.inr.inl => exact ⟨lo, hi, hlo, hhi, hmax, hshort⟩
  case inl => exact absurd h6 (Nat.not_le.mpr hshort)
  all_goals rw [hc] at hw; cases hw

/-- The mask and match of the `RESET` row are bit 9 (R52). -/
theorem portRst_of_decodePort_reset {w : PortWord} (h : decodePort w = .reset) : portRst w = true := by
  have hmask : w &&& 0x200 = if portRst w then 0x200 else 0 := BitVec.and_twoPow w 9
  unfold decodePort at h
  split at h
  · rename_i hrow
    by_contra hbit
    rw [hmask, if_neg hbit] at hrow
    exact absurd hrow (by decide)
  · split at h <;> cases h

theorem opState_out_prefix {i : Instr} (hi : i ≠ .reset) (s : State) : s.out <+: (opState P i s).out := by
  simp [opState, hi]

end Sys2Proof.Laws

/-! The statements of 10_state.md. -/

namespace Sys2Proof

open Machine Laws

/-- Settles O42: `stepOf_keeps_inv` at the default parameters, and the bound of R111 that the invariant gives. -/
theorem stepKeepsTheInvariant : Obligations.StepKeepsTheInvariant := by
  intro s t hinv hstep
  obtain ⟨t', ht', hinv'⟩ := stepOf_keeps_inv hinv
  obtain rfl : t = t' := Host.Outcome.next.inj (hstep.symm.trans ((step_eq_stepOf s).trans ht'))
  obtain ⟨hacc, hout⟩ := hinv'
  exact ⟨⟨hacc, hout⟩, Nat.le_of_lt_succ (length_lt_of_accInv hacc)⟩

/-- Settles O16: only a taken `RESET` restarts the history, and its word has the reset bit. -/
theorem onlyResetRestartsTheHistory : Obligations.OnlyResetRestartsTheHistory := by
  intro s t hstep
  rw [step_eq_stepOf] at hstep
  cases hin : s.input with
  | nil =>
    obtain rfl := Host.Outcome.next.inj ((stepOf_nil hin).symm.trans hstep)
    exact .inl (List.prefix_refl _)
  | cons e rest =>
    obtain rfl := Host.Outcome.next.inj ((stepOf_cons hin).symm.trans hstep)
    cases e.taken with
    | false => exact .inl (List.prefix_refl _)
    | true =>
      by_cases hr : decodePort e.word = .reset
      · exact .inr ⟨e, rest, rfl, portRst_of_decodePort_reset hr, by simp [hr, opState, opStep], by simp [hr, opState, opStep]⟩
      · exact .inl (opState_out_prefix hr s)

/-- Settles O40: the phase is read off the length, and the invariant says what stands at each length. -/
theorem accumulatorShapesAndBound : Obligations.AccumulatorShapesAndBound := by
  intro P acc ⟨_, hcap⟩ hinv
  have hlen : acc.length < P.maxFrame := length_lt_of_accInv hinv
  refine ⟨phase_eq_hunt_iff acc, ?sync1, ?header, ?body, Nat.le_of_lt_succ hlen,
    fun x => wf_append x (Nat.lt_of_lt_of_le hlen hcap)⟩
  case sync1 =>
    rw [phase_eq_sync1_iff]
    exact ⟨eq_sync0_of_accInv hinv, fun h => by simp [h]⟩
  case header =>
    rw [phase_eq_header_iff]
    exact ⟨fun ⟨h2, h6⟩ => ⟨h2, h6, (candidate_of_accInv hinv h2).left⟩, fun ⟨h2, h6, _⟩ => ⟨h2, h6⟩⟩
  case body =>
    rw [phase_eq_body_iff]
    refine ⟨fun h6 => ?_, fun ⟨_, _, hi, _, hhi, _⟩ => (List.getElem?_eq_some_iff.mp hhi).choose⟩
    obtain ⟨hsync, hwait⟩ := candidate_of_accInv hinv (Nat.le_trans (by decide) h6)
    exact ⟨hsync, declared_of_classify_wait hwait h6⟩

/-- Settles O2: the empty accumulator is the first shape of R16, and the empty history has no frame to check. -/
theorem resetStateMeetsTheInvariant : Obligations.ResetStateMeetsTheInvariant :=
  ⟨⟨.inl reset_acc, nofun⟩, wf_reset _, reset_acc, rfl, (phase_eq_hunt_iff _).mpr reset_acc, reset_out, rfl⟩

end Sys2Proof

/-! Shared laws: what `MemRead` answers on parts of an accumulator (R31). -/

namespace Sys2Proof.Laws

open Machine

theorem read_of_le {m : Memory} {i n : Nat} (h : i + n ≤ m.length) : m.read i n = some ((m.drop i).take n) := if_pos h

theorem read_of_lt {m : Memory} {i n : Nat} (h : m.length < i + n) : m.read i n = none := if_neg (Nat.not_le.mpr h)

/-- Bytes after the ones read do not matter. -/
theorem read_append_left {m : Memory} {i n : Nat} (h : i + n ≤ m.length) (later : List Byte) :
    Memory.read (m ++ later) i n = m.read i n := by
  have hn : n ≤ (m.drop i).length := by rw [List.length_drop]; omega
  rw [read_of_le h, read_of_le (by rw [List.length_append]; omega), List.drop_append_of_le_length (by omega),
    List.take_append_of_le_length hn]

/-- Bytes before the ones read shift the index. -/
theorem read_append_right (gone : List Byte) (m : Memory) (i n : Nat) :
    Memory.read (gone ++ m) (gone.length + i) n = m.read i n := by
  rw [Memory.read, Memory.read, List.drop_length_add_append]
  simp [Nat.add_assoc]

/-- An advance shifts every index (R14, R31). -/
theorem read_drop {m : Memory} {k : Nat} (h : k ≤ m.length) (i n : Nat) :
    Memory.read (m.drop k) i n = m.read (k + i) n := by
  have hk := read_append_right (m.take k) (m.drop k) i n
  rw [List.take_append_drop, List.length_take_of_le h] at hk
  exact hk.symm

end Sys2Proof.Laws

/-! Shared laws: the scan only removes bytes from the front, and how it ends at a candidate (R104, R107, R109). -/

namespace Sys2Proof.Laws

open Machine

variable {P : Params}

/-- Trimming removes bytes from the front only (R102). -/
theorem trim_suffix (P : Params) (s : Memory) : trim P s <:+ s := by
  obtain ⟨p, -, ht⟩ | ⟨-, hlast, ht⟩ | ⟨-, -, ht⟩ := trim_cases P s <;> rw [ht]
  · exact List.drop_suffix p s
  · obtain ⟨front, rfl⟩ := List.getLast?_eq_some_iff.mp hlast
    exact List.suffix_append front _
  · exact List.nil_suffix

/-- The tail that `Drain` keeps is a suffix of what it was given (R104). -/
theorem drain_suffix (P : Params) (s : Memory) : (drain P s).2 <:+ s := by
  have hle := length_trim_le P s
  have htrim := trim_suffix P s
  rw [drain_unfold]
  split
  · exact htrim
  · cases hc : classify P (trim P s) with
    | wait => exact htrim
    | accept f n =>
      obtain ⟨hn, -⟩ := classify_accept_length hc
      exact (drain_suffix P ((trim P s).drop n)).trans ((List.drop_suffix n _).trans htrim)
    | reject r => exact (drain_suffix P ((trim P s).drop 1)).trans ((List.drop_suffix 1 _).trans htrim)
termination_by s.length
decreasing_by all_goals simp only [List.length_drop] at *; omega

/-- What is left after a chunk is a suffix of the accumulator with the chunk appended (R109). -/
theorem feed_suffix (P : Params) (acc : Memory) (chunk : List Byte) : (feed P acc chunk).2 <:+ acc ++ chunk := by
  induction chunk generalizing acc with
  | nil => simp
  | cons x rest ih =>
    have hpush : (pushByte P acc x).2 <:+ acc ++ [x] := drain_suffix P (acc ++ [x])
    calc (feed P (pushByte P acc x).2 rest).2
      _ <:+ (pushByte P acc x).2 ++ rest := ih _
      _ <:+ acc ++ [x] ++ rest := List.suffix_append_self_iff.mpr hpush
      _ = acc ++ x :: rest := (List.append_cons ..).symm

/-- Pushing one byte is feeding the chunk of that byte (R109). -/
theorem feed_singleton (P : Params) (acc : Memory) (x : Byte) : feed P acc [x] = pushByte P acc x := by
  simp [feed_cons]

/-- The rows that deliver bytes feed them to the block (R54, R107, log entry 8). -/
theorem execOf_deliveredBytes {i : Instr} {bytes : List Byte} (h : deliveredBytes P i = some bytes) (s : State) :
    execOf P i s = .next (s.absorb (feed P s.acc bytes)) := by
  cases i with
  | pushb x => cases h; rw [feed_singleton]; rfl
  | push chunk => cases h; rfl
  | frame c i l h' payload a b => cases h; rfl
  | reset | idle | outrec => cases h

@[simp] theorem drain_nil (P : Params) : drain P [] = ([], []) := rfl

/-- A lone `SYNC0` is kept (R102). -/
@[simp] theorem drain_sync0 (P : Params) : drain P [P.sync0] = ([], [P.sync0]) := by
  have ht : trim P [P.sync0] = [P.sync0] := by simp [trim, findSync]
  rw [drain_unfold, ht]
  rfl

/-- A candidate that waits is kept whole (R104, outcome 2). -/
theorem drain_of_wait {s : Memory} (hsync : StartsWithSync P s) (hwait : classify P s = .wait) : drain P s = ([], s) := by
  rw [drain_unfold, trim_pair hsync, if_neg (Nat.not_lt.mpr (two_le_length_of_startsWithSync hsync)), hwait]

/-- An accepted frame is emitted, and the scan goes on behind it (R104, outcome 1). -/
theorem drain_of_accept {s : Memory} {f : Frame} {n : Nat} (hsync : StartsWithSync P s)
    (haccept : classify P s = .accept f n) : drain P s = (f :: (drain P (s.drop n)).1, (drain P (s.drop n)).2) := by
  rw [drain_unfold, trim_pair hsync, if_neg (Nat.not_lt.mpr (two_le_length_of_startsWithSync hsync)), haccept]

/-- A chunk of which the scan keeps every beginning is kept whole and emits nothing. -/
theorem feed_eq_self_of_prefixes {s : List Byte} (h : ∀ u, u <+: s → drain P u = ([], u)) : feed P [] s = ([], s) := by
  induction s using List.reverseRecOn with
  | nil => rfl
  | append_singleton u x ih =>
    have hu : feed P [] u = ([], u) := ih fun v hv => h v (hv.trans (List.prefix_append u [x]))
    have hx : pushByte P u x = ([], u ++ [x]) := h (u ++ [x]) (List.prefix_refl _)
    rw [feed_append, hu, feed_singleton, hx]
    rfl

end Sys2Proof.Laws

/-! Shared laws: the raw form of a frame, how `Decode` and `Classify` read it, and how they read a beginning of it (R80, R82, R103). -/

namespace Sys2Proof.Laws

open Machine

variable {P : Params}

/-- The two length bytes hold every length the field has room for (R57). -/
theorem lenOf_lenLo_lenHi {n : Nat} (h : n ≤ 65535) : lenOf (lenLo n) (lenHi n) = n := by
  simp only [lenOf, lenLo, lenHi, BitVec.toNat_ofNat]
  omega

/-- The slice between a front and a back (R6). -/
theorem slice_append (front mid back : List Byte) :
    slice (front ++ mid ++ back) front.length (front.length + mid.length) = mid := by
  rw [slice, ← List.length_append, List.take_left, List.drop_left]

/-- The raw form, byte by byte up to the payload (R55). -/
theorem rawFrame_eq (P : Params) (f : Frame) :
    rawFrame P f = P.sync0 :: P.sync1 :: f.messageClass :: f.messageId :: lenLo f.payload.length ::
      lenHi f.payload.length :: (f.payload ++ [(cksum (frameBody f)).cka, (cksum (frameBody f)).ckb]) := rfl

@[simp] theorem length_rawFrame (P : Params) (f : Frame) : (rawFrame P f).length = f.payload.length + overhead := by
  simp [rawFrame_eq, overhead]

@[simp] theorem length_frameBody (f : Frame) : (frameBody f).length = f.payload.length + 4 := rfl

/-- The summed span of the raw form is the body (R58). -/
theorem slice_rawFrame_body (P : Params) (f : Frame) :
    slice (rawFrame P f) 2 (hdr + f.payload.length) = frameBody f := by
  have h := slice_append [P.sync0, P.sync1] (frameBody f) [(cksum (frameBody f)).cka, (cksum (frameBody f)).ckb]
  rwa [length_frameBody, show [P.sync0, P.sync1].length + (f.payload.length + 4) = hdr + f.payload.length by
    simp only [List.length_cons, List.length_nil, hdr]; omega] at h

/-- The payload stands after the header (R55). -/
theorem slice_rawFrame_payload (P : Params) (f : Frame) :
    slice (rawFrame P f) hdr (hdr + f.payload.length) = f.payload :=
  slice_append [P.sync0, P.sync1, f.messageClass, f.messageId, lenLo f.payload.length, lenHi f.payload.length] f.payload
    [(cksum (frameBody f)).cka, (cksum (frameBody f)).ckb]

/-- The checksum bytes stand after the payload (R55, R58). -/
theorem drop_rawFrame (P : Params) (f : Frame) :
    (rawFrame P f).drop (hdr + f.payload.length) = [(cksum (frameBody f)).cka, (cksum (frameBody f)).ckb] := by
  rw [Nat.add_comm, rawFrame_eq]
  exact List.drop_left

/-- Bytes that pass every check of `Decode` are the frame of their fields (R82). -/
theorem decodeFrame_of_checks {s rest : List Byte} {c i lo hi : Byte}
    (hs : s = P.sync0 :: P.sync1 :: c :: i :: lo :: hi :: rest) (hlen : lenOf lo hi + overhead = s.length)
    (hck : s.drop (hdr + lenOf lo hi) =
      [(cksum (slice s 2 (hdr + lenOf lo hi))).cka, (cksum (slice s 2 (hdr + lenOf lo hi))).ckb]) :
    decodeFrame P s = .frame ⟨c, i, slice s hdr (hdr + lenOf lo hi)⟩ := by
  have hlong : ¬ s.length < minFrame := by rw [← hlen]; exact Nat.not_lt.mpr (Nat.le_add_left ..)
  subst hs
  rw [decodeFrame, if_neg hlong, if_neg (by simp), if_neg (not_not.mpr hlen)]
  exact if_neg (not_not.mpr hck)

/-- `Decode` reads a raw form back (R84). -/
theorem decodeFrame_rawFrame {f : Frame} (h : f.payload.length ≤ 65535) : decodeFrame P (rawFrame P f) = .frame f := by
  have hlen : lenOf (lenLo f.payload.length) (lenHi f.payload.length) = f.payload.length := lenOf_lenLo_lenHi h
  rw [decodeFrame_of_checks (rawFrame_eq P f) (by rw [hlen, length_rawFrame])
    (by rw [hlen, drop_rawFrame, slice_rawFrame_body]), hlen, slice_rawFrame_payload]

/-- A beginning of a raw form that has its first two bytes is a candidate. -/
theorem startsWithSync_of_prefix {f : Frame} {s : List Byte} (hs : s <+: rawFrame P f) (h2 : 2 ≤ s.length) :
    StartsWithSync P s := by
  obtain ⟨rest, hrest⟩ := hs
  rw [StartsWithSync, ← List.take_append_of_le_length (l₂ := rest) h2, hrest, rawFrame_eq]
  rfl

theorem getElem?_of_prefix {α : Type} {s t : List α} {i : Nat} {a : α} (hs : s <+: t) (h : s[i]? = some a) :
    t[i]? = some a := by
  obtain ⟨hi, rfl⟩ := List.getElem?_eq_some_iff.mp h
  exact List.prefix_iff_getElem?.mp hs i hi

/-- The length bytes in a beginning of a raw form declare the payload's length (R57). -/
theorem lenOf_of_prefix {f : Frame} {s : List Byte} {lo hi : Byte} (hs : s <+: rawFrame P f)
    (hf : f.payload.length ≤ 65535) (hlo : s[4]? = some lo) (hhi : s[5]? = some hi) : lenOf lo hi = f.payload.length := by
  obtain rfl : lenLo f.payload.length = lo := Option.some.inj (getElem?_of_prefix hs hlo)
  obtain rfl : lenHi f.payload.length = hi := Option.some.inj (getElem?_of_prefix hs hhi)
  exact lenOf_lenLo_lenHi hf

/-- A beginning of a valid frame's raw form that lacks a byte waits (R103). -/
theorem classify_of_proper_prefix {f : Frame} {s : Memory} (hok : P.Ok) (hf : f.payload.length ≤ P.maxpay)
    (hs : s <+: rawFrame P f) (hlt : s.length < (rawFrame P f).length) : classify P s = .wait := by
  obtain ⟨hfield, -⟩ := hok
  rw [length_rawFrame] at hlt
  obtain ⟨-, hwait⟩ | ⟨lo, hi, hlo, hhi, hdecided⟩ := classify_cases P s
  · exact hwait
  · rw [lenOf_of_prefix hs (hf.trans hfield) hlo hhi] at hdecided
    obtain ⟨hover, -⟩ | ⟨-, -, hwait⟩ | ⟨-, hlong, -⟩ := hdecided
    · omega
    · exact hwait
    · omega

/-- The raw form of a valid frame is accepted whole (R103). -/
theorem classify_rawFrame {f : Frame} (hok : P.Ok) (hf : f.payload.length ≤ P.maxpay) :
    classify P (rawFrame P f) = .accept f (rawFrame P f).length := by
  obtain ⟨hfield, -⟩ := hok
  have hdecode : decodeFrame P (rawFrame P f) = .frame f := decodeFrame_rawFrame (hf.trans hfield)
  obtain ⟨hshort, -⟩ | ⟨lo, hi, hlo, hhi, hdecided⟩ := classify_cases P (rawFrame P f)
  · simp only [length_rawFrame, overhead, hdr] at hshort
    omega
  · rw [lenOf_of_prefix (List.prefix_refl _) (hf.trans hfield) hlo hhi, ← length_rawFrame P f, List.take_length,
      hdecode] at hdecided
    obtain ⟨hover, -⟩ | ⟨-, hshort, -⟩ | ⟨-, -, ⟨g, hg, haccept⟩ | ⟨r, hr, -⟩⟩ := hdecided
    · omega
    · omega
    · cases hg; exact haccept
    · cases hr

/-- The scan keeps a beginning of a valid frame's raw form that lacks a byte (R44). -/
theorem drain_of_proper_prefix {f : Frame} {s : Memory} (hok : P.Ok) (hf : f.payload.length ≤ P.maxpay)
    (hs : s <+: rawFrame P f) (hlt : s.length < (rawFrame P f).length) : drain P s = ([], s) := by
  match s with
  | [] => exact drain_nil P
  | [x] =>
    obtain rfl : P.sync0 = x := Option.some.inj (getElem?_of_prefix (i := 0) hs rfl)
    exact drain_sync0 P
  | _ :: _ :: _ => exact drain_of_wait (startsWithSync_of_prefix hs (by simp)) (classify_of_proper_prefix hok hf hs hlt)

/-- The scan takes the raw form of a valid frame out and leaves nothing. -/
theorem drain_rawFrame {f : Frame} (hok : P.Ok) (hf : f.payload.length ≤ P.maxpay) : drain P (rawFrame P f) = ([f], []) := by
  have hsync : StartsWithSync P (rawFrame P f) := rfl
  rw [drain_of_accept hsync (classify_rawFrame hok hf), List.drop_length]
  rfl

end Sys2Proof.Laws

/-! Shared laws: a step answers a next state whatever the state, and what it does to a product of blocks (R45, R130). -/

namespace Sys2Proof.Laws

open Machine

/-- No step stops the machine (R130). -/
theorem step_next (s : State) : ∃ t, step s = .next t := by
  rw [step_eq_stepOf]
  cases hin : s.input with
  | nil => exact ⟨s, stepOf_nil hin⟩
  | cons e rest => exact ⟨_, stepOf_cons hin⟩

/-- A step of one block replaces that block in the product (R45). -/
theorem stepOne_of_step {n : Nat} {blocks : Vector State n} {k : Fin n} {t : State} (h : step blocks[k] = .next t) :
    stepOne blocks k = .next (blocks.set k t) := by
  rw [stepOne, h]

/-- Replacing one block leaves every other as it was. -/
theorem getElem_set_fin_ne {n : Nat} (blocks : Vector State n) {j k : Fin n} (h : j ≠ k) (t : State) :
    (blocks.set k t)[j] = blocks[j] :=
  Vector.getElem_set_ne k.isLt j.isLt (Fin.val_ne_of_ne h.symm)

end Sys2Proof.Laws

/-! The statements of 20_memory.md. -/

namespace Sys2Proof

open Machine Laws

/-- Settles O44: every beginning of the raw form waits in the accumulator, and its last byte completes an accepted candidate. -/
theorem lastByteEmitsTheFrame : Obligations.LastByteEmitsTheFrame := by
  intro P f hok hf
  obtain ⟨early, last, hraw⟩ : ∃ early last, rawFrame P f = early ++ [last] :=
    ⟨_, _, (List.dropLast_append_getLast (List.cons_ne_nil _ _)).symm⟩
  refine ⟨early, last, hraw, feed_eq_self_of_prefixes fun u hu => ?_, ?_⟩
  · refine drain_of_proper_prefix hok hf (hraw ▸ hu.trans (List.prefix_append early [last])) ?_
    rw [hraw, List.length_append]
    exact Nat.lt_succ_of_le hu.length_le
  · rw [pushByte, append_eq, ← hraw]
    exact drain_rawFrame hok hf

/-- Settles O6: the block feeds the delivered bytes to its scan, which removes bytes from the front only (`feed_suffix`). -/
theorem deliveredBytesAreAppendedAndNeverModified : Obligations.DeliveredBytesAreAppendedAndNeverModified := by
  intro i bytes s hbytes
  obtain ⟨gone, hgone⟩ := feed_suffix Config.params s.acc bytes
  refine ⟨s.absorb (feed Config.params s.acc bytes), gone, ?_, ?_, fun k n _ => ?_, ?_, absorb_input ..⟩
  · rw [exec_eq_execOf, execOf_deliveredBytes hbytes]
  · rw [absorb_acc, hgone]
  · rw [absorb_acc, ← hgone, read_append_right]
  · rw [absorb_out]
    exact List.prefix_append ..

/-- Settles O18: a step of one block is one `Vector.set`, and two of them at different places commute. -/
theorem instancesAreIndependent : Obligations.InstancesAreIndependent := by
  intro n blocks k
  obtain ⟨t, ht⟩ := step_next blocks[k]
  refine ⟨t, blocks.set k t, ht, stepOne_of_step ht, Vector.getElem_set_self k.isLt, fun j hjk => ?_⟩
  obtain ⟨u, hu⟩ := step_next blocks[j]
  have hj : (blocks.set k t)[j] = blocks[j] := getElem_set_fin_ne blocks hjk t
  have hk : (blocks.set j u)[k] = blocks[k] := getElem_set_fin_ne blocks hjk.symm u
  refine ⟨hj, blocks.set j u, (blocks.set k t).set j u, stepOne_of_step hu, stepOne_of_step (hj ▸ hu), ?_⟩
  rw [stepOne_of_step (hk ▸ ht), Vector.set_comm u t (Fin.val_ne_of_ne hjk)]

/-- Settles O32: an append adds bytes behind the old ones, and an advance removes bytes before the ones that stay. -/
theorem memoryReads : Obligations.MemoryReads := by
  intro m x i n
  refine ⟨?_, fun h => ⟨read_append_left h [x], by rw [read_of_le h]; rfl⟩, read_of_lt, fun k hk => read_drop hk i n⟩
  exact read_append_right m [x] 0 1

end Sys2Proof

/-! Shared laws: the rows of the port word by its bits (R51, R52), and what an edge does with the word it brings. -/

namespace Sys2Proof.Laws

open Machine

/-- The mask of `RESET` is bit 9 (R52). -/
theorem and_resetMask (w : PortWord) : w &&& 0x200 = if portRst w then 0x200 else 0 := BitVec.and_twoPow w 9

/-- The mask of `PUSHB` and `IDLE` is bits 9 and 8 (R52). -/
theorem and_rowMask (w : PortWord) :
    w &&& 0x300 = (if portRst w then 0x200 else 0) ||| (if portValid w then 0x100 else 0) := by
  have hvalid : w &&& 0x100 = if portValid w then 0x100 else 0 := BitVec.and_twoPow w 8
  rw [show (0x300 : PortWord) = 0x200 ||| 0x100 by decide, BitVec.and_or_distrib_left, and_resetMask, hvalid]

theorem and_resetMask_eq_iff (w : PortWord) : w &&& 0x200 = 0x200 ↔ portRst w = true := by
  rw [and_resetMask]
  cases portRst w <;> decide

theorem and_rowMask_eq_pushb_iff (w : PortWord) : w &&& 0x300 = 0x100 ↔ portRst w = false ∧ portValid w = true := by
  rw [and_rowMask]
  cases portRst w <;> cases portValid w <;> decide

theorem and_rowMask_eq_idle_iff (w : PortWord) : w &&& 0x300 = 0 ↔ portRst w = false ∧ portValid w = false := by
  rw [and_rowMask]
  cases portRst w <;> cases portValid w <;> decide

/-- The operation of a port word, read off `rst`, `in_valid` and `in_data` (R51, R52). -/
theorem decodePort_eq (w : PortWord) :
    decodePort w = if portRst w then .reset else if portValid w then .pushb (portData w) else .idle := by
  rw [decodePort]
  simp only [and_resetMask_eq_iff, and_rowMask_eq_pushb_iff]
  cases portRst w <;> simp

theorem decodePort_eq_reset_iff (w : PortWord) : decodePort w = .reset ↔ portRst w = true := by
  rw [decodePort_eq]
  cases portRst w <;> cases portValid w <;> simp

theorem decodePort_eq_pushb_iff (w : PortWord) (x : Byte) :
    decodePort w = .pushb x ↔ portRst w = false ∧ portValid w = true ∧ portData w = x := by
  rw [decodePort_eq]
  cases portRst w <;> cases portValid w <;> simp

theorem decodePort_eq_idle_iff (w : PortWord) : decodePort w = .idle ↔ portRst w = false ∧ portValid w = false := by
  rw [decodePort_eq]
  cases portRst w <;> cases portValid w <;> simp

theorem portData_eq_setWidth (w : PortWord) : portData w = w.setWidth 8 := BitVec.setWidth_eq_extractLsb' (by decide) |>.symm

@[simp] theorem portRst_pushbWord (x : Byte) : portRst (pushbWord x) = false := by
  simp [portRst, pushbWord]

@[simp] theorem portValid_pushbWord (x : Byte) : portValid (pushbWord x) = true := by
  simp [portValid, pushbWord]

@[simp] theorem portData_pushbWord (x : Byte) : portData (pushbWord x) = x := by
  rw [portData_eq_setWidth, pushbWord, BitVec.setWidth_or, BitVec.setWidth_setWidth_of_le _ (by decide), BitVec.setWidth_eq]
  exact BitVec.zero_or

/-- The canonical word of a byte is the `PUSHB` of that byte (R52). -/
@[simp] theorem decodePort_pushbWord (x : Byte) : decodePort (pushbWord x) = .pushb x :=
  (decodePort_eq_pushb_iff _ x).mpr ⟨portRst_pushbWord x, portValid_pushbWord x, portData_pushbWord x⟩

@[simp] theorem pushedByte_pushbWord (x : Byte) : pushedByte (pushbWord x) = some x := by
  rw [pushedByte, decodePort_pushbWord]

/-- The words of a chunk deliver the bytes of the chunk (R54). -/
theorem mapM_pushedByte_pushbWord (chunk : List Byte) : (chunk.map pushbWord).mapM pushedByte = some chunk := by
  induction chunk with
  | nil => rfl
  | cons x rest ih => simp [ih]

/-- Port words decode to operations and chunks, which are well-formed whatever they carry (R52, R54). -/
theorem wellFormed_of_decodePortWords {P : Params} {ws : List PortWord} {i : Instr} (h : decodePortWords ws = .ok i) :
    i.wellFormed P = true := by
  unfold decodePortWords at h
  split at h
  · exact Except.ok.inj h ▸ decodePort_wellFormed P _
  · split at h
    · exact Except.ok.inj h ▸ rfl
    · cases h

/-- A taken word is executed on the state with its edge past (R51). -/
theorem step_of_taken {s : State} {e : Edge} {later : List Edge} (hin : s.input = e :: later) (ht : e.taken = true) :
    step s = exec (decodePort e.word) { s with input := later } := by
  simp [step, atEdge, fetch, hin, ht]

/-- An edge that takes nothing only passes (R51). -/
theorem step_of_not_taken {s : State} {e : Edge} {later : List Edge} (hin : s.input = e :: later) (ht : e.taken = false) :
    step s = .next { s with input := later } := by
  simp [step, atEdge, fetch, hin, ht]

/-- A quiet port is `IDLE` (R140, log entry 5). -/
theorem step_of_quiet {s : State} (hin : s.input = []) : step s = exec .idle s := by
  simp [step, atEdge, fetch, hin]

theorem run_one (M : Host.Core) (s : M.State) : M.run 1 s = M.step s := by
  rw [Host.Core.run]
  cases M.step s <;> rfl

/-- The words of a chunk at ready edges, taken one an edge, feed the chunk to the block (R51, R54). -/
theorem run_pushbWords (P : Params) (chunk : List Byte) (s : State) (later : List Edge) :
    Host.Core.run (blockOf P) chunk.length { s with input := readyEdges (chunk.map pushbWord) ++ later } =
      .next { s.absorb (feed P s.acc chunk) with input := later } := by
  induction chunk generalizing s with
  | nil => simp [Host.Core.run, readyEdges, absorb_eq]
  | cons x rest ih =>
    have hstep : stepOf P { s with input := readyEdges ((x :: rest).map pushbWord) ++ later } =
        .next { s.absorb (pushByte P s.acc x) with input := readyEdges (rest.map pushbWord) ++ later } := by
      rw [stepOf_cons rfl]
      simp [Edge.taken, opState, opStep, absorb_eq, readyEdges]
    refine (run_succ_of_next (M := blockOf P) rest.length hstep).trans ((ih _).trans ?_)
    simp [absorb_eq, feed_cons]

end Sys2Proof.Laws

/-! Shared laws: the `FRAME` instruction of a frame, and that it is all the wire decoder reads (R55, R82, R87). -/

namespace Sys2Proof.Laws

open Machine

variable {P : Params}

/-- The `FRAME` whose bytes are the raw form of `f` (R55, R57, R58). -/
def frameInstr (f : Frame) : Instr :=
  .frame f.messageClass f.messageId (lenLo f.payload.length) (lenHi f.payload.length) f.payload
    (cksum (frameBody f)).cka (cksum (frameBody f)).ckb

@[simp] theorem encode_frameInstr (P : Params) (f : Frame) : encode P (frameInstr f) = .wire (rawFrame P f) := rfl

theorem lenOf_le (lo hi : Byte) : lenOf lo hi ≤ 65535 := by
  have hlo := lo.isLt
  have hhi := hi.isLt
  simp only [lenOf]
  omega

/-- The well-formed `FRAME`s are those of the valid frames whose length the field can hold. -/
theorem eq_frameInstr_of_wellFormed {c i l h a b : Byte} {payload : List Byte}
    (hw : (Instr.frame c i l h payload a b).wellFormed P = true) :
    Instr.frame c i l h payload a b = frameInstr ⟨c, i, payload⟩ ∧ payload.length ≤ 65535 ∧ payload.length ≤ P.maxpay := by
  simp only [Instr.wellFormed, payloadFits, checksumHolds, Bool.and_eq_true, decide_eq_true_eq, beq_iff_eq] at hw
  obtain ⟨⟨hdeclared, hfits⟩, hck⟩ := hw
  have hlen : lenOf l h = payload.length := (lengthDeclared_iff l h payload).mp hdeclared
  have hbody : frameBody ⟨c, i, payload⟩ = [c, i, l, h] ++ payload := outRec_of_lengthDeclared hdeclared c i
  refine ⟨?_, hlen ▸ lenOf_le l h, hfits⟩
  simp only [frameInstr, hbody, hck, ← hlen, lenLo_lenOf, lenHi_lenOf]

theorem frameInstr_wellFormed {f : Frame} (hfield : f.payload.length ≤ 65535) (hmax : f.payload.length ≤ P.maxpay) :
    (frameInstr f).wellFormed P = true := by
  have hsum : checksumHolds (frameBody f) (cksum (frameBody f)).cka (cksum (frameBody f)).ckb = true := beq_self_eq_true _
  have hlen : lengthDeclared (lenLo f.payload.length) (lenHi f.payload.length) f.payload = true :=
    (lengthDeclared_iff ..).mpr (lenOf_lenLo_lenHi hfield)
  have hfits : payloadFits P f.payload = true := decide_eq_true hmax
  exact Bool.and_eq_true_iff.mpr ⟨Bool.and_eq_true_iff.mpr ⟨hlen, hfits⟩, hsum⟩

/-- Everything `Decode` has checked when it answers a frame (R82): the converse of `decodeFrame_of_checks`. -/
theorem checks_of_decodeFrame {s : List Byte} {f : Frame} (h : decodeFrame P s = .frame f) :
    ∃ c i lo hi rest, s = P.sync0 :: P.sync1 :: c :: i :: lo :: hi :: rest ∧ lenOf lo hi + overhead = s.length ∧
      s.drop (hdr + lenOf lo hi) =
        [(cksum (slice s 2 (hdr + lenOf lo hi))).cka, (cksum (slice s 2 (hdr + lenOf lo hi))).ckb] ∧
      f = ⟨c, i, slice s hdr (hdr + lenOf lo hi)⟩ := by
  unfold decodeFrame at h
  split at h
  · cases h
  · split at h
    case h_2 => cases h
    case h_1 s0 s1 c i lo hi rest _ =>
      split at h
      · cases h
      · rename_i hsync
        obtain ⟨rfl, rfl⟩ : s0 = P.sync0 ∧ s1 = P.sync1 := by simpa using hsync
        split at h
        · cases h
        · rename_i hlen
          dsimp only at h
          split at h
          · cases h
          · rename_i hck
            exact ⟨c, i, lo, hi, rest, rfl, not_not.mp hlen, not_not.mp hck, (DecodeResult.frame.inj h).symm⟩

/-- `Decode` answers a frame on its raw form only: a frame has one spelling (R87). -/
theorem eq_rawFrame_of_decodeFrame {s : List Byte} {f : Frame} (h : decodeFrame P s = .frame f) :
    f.payload.length ≤ 65535 ∧ s = rawFrame P f := by
  obtain ⟨c, i, lo, hi, rest, rfl, hlen, hck, rfl⟩ := checks_of_decodeFrame h
  set s := P.sync0 :: P.sync1 :: c :: i :: lo :: hi :: rest with hs
  have hpayload : slice s hdr (hdr + lenOf lo hi) = rest.take (lenOf lo hi) := by simp [hs, slice, hdr, Nat.add_comm 6]
  have hspan : slice s 2 (hdr + lenOf lo hi) = [c, i, lo, hi] ++ rest.take (lenOf lo hi) := by
    simp [hs, slice, hdr, Nat.add_comm 6]
  have hlength : lenOf lo hi = (rest.take (lenOf lo hi)).length := by
    simp only [hs, List.length_cons, overhead] at hlen
    rw [List.length_take_of_le (by omega)]
  have hbody : frameBody ⟨c, i, rest.take (lenOf lo hi)⟩ = slice s 2 (hdr + lenOf lo hi) :=
    (outRec_of_lengthDeclared ((lengthDeclared_iff ..).mpr hlength) c i).trans hspan.symm
  rw [hpayload]
  refine ⟨hlength ▸ lenOf_le lo hi, ?_⟩
  calc s
    _ = [P.sync0, P.sync1] ++ slice s 2 (hdr + lenOf lo hi) ++ s.drop (hdr + lenOf lo hi) := by
      rw [hspan]
      simp [hs, hdr, Nat.add_comm 6]
    _ = rawFrame P ⟨c, i, rest.take (lenOf lo hi)⟩ := by rw [hck, rawFrame, hbody, wireBytes]

/-- The wire decoder reads the raw form of a valid frame as its `FRAME`. -/
theorem decodeWire_rawFrame {f : Frame} (hfield : f.payload.length ≤ 65535) :
    decodeWire P (rawFrame P f) = if P.maxpay < f.payload.length then .error .payloadOverMax else .ok (frameInstr f) := by
  rw [decodeWire, decodeFrame_rawFrame hfield]
  simp only [drop_rawFrame]
  rw [rawFrame_eq]
  rfl

/-- The wire decoder reads nothing else (R63, R87). -/
theorem exists_frame_of_decodeWire {s : List Byte} {i : Instr} (h : decodeWire P s = .ok i) :
    ∃ f : Frame, f.payload.length ≤ 65535 ∧ f.payload.length ≤ P.maxpay ∧ s = rawFrame P f ∧ i = frameInstr f := by
  cases hd : decodeFrame P s with
  | noFrame r => rw [decodeWire, hd] at h; cases h
  | frame f =>
    obtain ⟨hfield, rfl⟩ := eq_rawFrame_of_decodeFrame hd
    rw [decodeWire_rawFrame hfield] at h
    split at h
    · cases h
    · exact ⟨f, hfield, by omega, rfl, (Except.ok.inj h).symm⟩

/-- The raw form of a valid frame, fed to an empty accumulator, is the frame and leaves nothing (R44). -/
theorem feed_rawFrame {f : Frame} (hok : P.Ok) (hmax : f.payload.length ≤ P.maxpay) :
    feed P [] (rawFrame P f) = ([f], []) := by
  obtain ⟨early, last, hraw, hearly, hlast⟩ := lastByteEmitsTheFrame P f hok hmax
  rw [hraw, feed_append, hearly, feed_singleton, hlast]
  rfl

end Sys2Proof.Laws

/-! Shared laws: the output record read back, and its marks (R62). -/

namespace Sys2Proof.Laws

open Machine

/-- Record bytes decode only to the well-formed `OUTREC` of their own fields (R62). -/
theorem encode_of_decodeOut {P : Params} {bs : List Byte} {i : Instr} (h : decodeOut P bs = .ok i) :
    i.wellFormed P = true ∧ encode P i = .out bs := by
  unfold decodeOut at h
  split at h
  · split at h
    · rename_i hw
      exact Except.ok.inj h ▸ ⟨hw, rfl⟩
    · cases h
  · cases h

theorem outRec_eq (f : Frame) :
    outRec f = f.messageClass :: f.messageId :: lenLo f.payload.length :: lenHi f.payload.length :: f.payload := rfl

/-- The length bytes of a record say where it ends (R62). -/
theorem readRecord_outRec_append {f : Frame} (h : f.payload.length ≤ 65535) (rest : List Byte) :
    readRecord (outRec f ++ rest) = some (f, rest) := by
  simp [outRec_eq, readRecord, lenOf_lenLo_lenHi h]

/-- A reader with an iteration for each record reads all of them. -/
theorem readRecordsLoop_flatMap_outRec {fs : List Frame} (h : ∀ f ∈ fs, f.payload.length ≤ 65535) {n : Nat}
    (hn : fs.length ≤ n) : readRecordsLoop n (fs.flatMap outRec) = fs := by
  induction fs generalizing n with
  | nil => cases n <;> rfl
  | cons f fs ih =>
    obtain ⟨hf, hfs⟩ := List.forall_mem_cons.mp h
    obtain ⟨n, rfl⟩ : ∃ m, n = m + 1 := Nat.exists_eq_add_one.mpr (Nat.zero_lt_of_lt hn)
    rw [List.flatMap_cons, readRecordsLoop, readRecord_outRec_append hf]
    exact congrArg (f :: ·) (ih hfs (Nat.le_of_succ_le_succ hn))

theorem length_le_length_flatMap_outRec (fs : List Frame) : fs.length ≤ (fs.flatMap outRec).length := by
  induction fs with
  | nil => simp
  | cons f fs ih =>
    simp only [List.flatMap_cons, List.length_append, outRec_eq, List.length_cons]
    omega

/-- Behind a record's first byte nothing is marked as first, and the last byte alone as last (R62). -/
theorem tailBeats_marks {s : List Byte} {k : Nat} {b : OutBeat} (h : (tailBeats s)[k]? = some b) :
    b.outFirst = false ∧ (b.outLast = true ↔ k + 1 = s.length) := by
  induction s using tailBeats.induct generalizing k with
  | case1 => simp [tailBeats] at h
  | case2 x =>
    obtain ⟨rfl, rfl⟩ : k = 0 ∧ _ := by simpa [tailBeats, List.getElem?_singleton] using h
    simp
  | case3 x y rest ih =>
    rw [tailBeats] at h
    cases k with
    | zero => obtain rfl := Option.some.inj h; simp
    | succ k => simpa using ih h

end Sys2Proof.Laws

/-! The statements of 30_encoding.md. -/

namespace Sys2Proof

open Machine Laws

/-- Settles O21, one case for each row: the bytes of a well-formed `FRAME` are the raw form of its frame. -/
theorem decodeOfEncode : Obligations.DecodeOfEncode := by
  intro P i hw
  cases i with
  | reset | idle => rfl
  | pushb x => exact congrArg Except.ok (decodePort_pushbWord x)
  | push chunk =>
    match chunk with
    | [] => rfl
    | [x] => exact congrArg Except.ok (decodePort_pushbWord x)
    | x :: y :: rest =>
      rw [encode, decode, decodePortWords, mapM_pushedByte_pushbWord]
      · rfl
      · simp
  | frame c i l h payload a b =>
    obtain ⟨heq, hfield, hmax⟩ := eq_frameInstr_of_wellFormed hw
    rw [heq, encode_frameInstr]
    exact (decodeWire_rawFrame hfield).trans (if_neg (Nat.not_lt.mpr hmax))
  | outrec c i l h payload => exact if_pos hw

/-- Settles O8, by induction on the chunk in `run_pushbWords`, taken at the default parameters. -/
theorem chunkAsPortWords : Obligations.ChunkAsPortWords := by
  intro chunk s later
  refine ⟨s.absorb (feed Config.params s.acc chunk), exec_push chunk s, ?_⟩
  exact (run_core ..).trans (run_pushbWords ..)

/-- Settles O9: in phase `HUNT` the accumulator is empty, and the bytes of a well-formed `FRAME` are its frame's raw form. -/
theorem frameArrivingWhileHuntingIsEmitted : Obligations.FrameArrivingWhileHuntingIsEmitted := by
  intro c i l h a b payload s hw hhunt
  obtain ⟨heq, -, hmax⟩ := eq_frameInstr_of_wellFormed hw
  have hacc : s.acc = [] := (phase_eq_hunt_iff s.acc).mp hhunt
  have hfeed := feed_rawFrame (P := Config.params) (f := ⟨c, i, payload⟩) (by decide) hmax
  rw [heq, exec_eq_execOf, execOf_deliveredBytes (bytes := rawFrame Config.params ⟨c, i, payload⟩) rfl, hacc, hfeed,
    absorb_eq]

/-- Settles O13: the busy edge only passes, and the word at the next one has the same valid bit and data. -/
theorem heldByteIsTakenOnce : Obligations.HeldByteIsTakenOnce := by
  intro s e e' later x hin hheld hpush hbusy hrst' hready'
  obtain ⟨hrst, hvalid, hdata⟩ := (decodePort_eq_pushb_iff e.word x).mp hpush
  have hnot : e.taken = false := by simp [Edge.taken, hrst, hbusy]
  have hsame : portValid e.word = portValid e'.word ∧ portData e.word = portData e'.word := by
    rw [hin, heldSteady] at hheld
    simp only [hnot, Bool.false_or, Bool.and_eq_true, beq_iff_eq] at hheld
    exact hheld.left
  obtain ⟨hvalid', hdata'⟩ := hsame
  have hpush' : decodePort e'.word = .pushb x :=
    (decodePort_eq_pushb_iff e'.word x).mpr ⟨hrst', hvalid' ▸ hvalid, hdata' ▸ hdata⟩
  have hfirst : core.step s = .next { s with input := e' :: later } := step_of_not_taken hin hnot
  rw [run_succ_of_next 1 hfirst, ← hpush']
  exact (run_one core _).trans (step_of_taken rfl (by simp [Edge.taken, hready']))

/-- Settles O22: wire bytes decode only to the `FRAME` whose raw form they are, and record bytes to their own fields. -/
theorem encodeOfDecode : Obligations.EncodeOfDecode := by
  intro P code i h
  cases code with
  | port ws => exact ⟨wellFormed_of_decodePortWords h, nofun⟩
  | wire bs =>
    obtain ⟨f, hfield, hmax, rfl, rfl⟩ := exists_frame_of_decodeWire h
    exact ⟨frameInstr_wellFormed hfield hmax, fun _ _ => encode_frameInstr P f⟩
  | out bs =>
    obtain ⟨hw, hcode⟩ := encode_of_decodeOut h
    exact ⟨hw, fun _ _ => hcode⟩

/-- Settles O23: the beats carry the records, a record is read back by its length, and its marks are those of its two ends. -/
theorem outputIsSelfDelimiting : Obligations.OutputIsSelfDelimiting := by
  have hbytes : ∀ fs : List Frame, (outBeats fs).map OutBeat.outData = fs.flatMap outRec := fun fs => by
    simp [outBeats, List.map_flatMap]
  refine ⟨hbytes, fun fs hfs => ?_, fun f k b hk => ?_⟩
  · rw [hbytes]
    exact readRecordsLoop_flatMap_outRec hfs (length_le_length_flatMap_outRec fs)
  · cases k with
    | zero => obtain rfl := Option.some.inj hk; simp
    | succ k =>
      obtain ⟨hfirst, hlast⟩ := tailBeats_marks (s := (outRec f).tail) (b := b) (k := k) hk
      simp [hfirst, hlast, outRec_eq]

/-- Settles O11: `step_of_taken` at a listed edge, `step_of_quiet` where none is listed. -/
theorem stepRunsTheTakenWord : Obligations.StepRunsTheTakenWord :=
  ⟨fun _ _ _ => step_of_taken, fun _ => step_of_quiet⟩

/-- Settles O12: an edge with `rst` is taken and decodes to `RESET`; without it `in_ready` decides. -/
theorem resetHasPriorityAndBusyEdgesTakeNothing : Obligations.ResetHasPriorityAndBusyEdgesTakeNothing := by
  intro s e later hin
  refine ⟨fun hrst => ?_, fun hrst hbusy => step_of_not_taken hin (by simp [Edge.taken, hrst, hbusy])⟩
  rw [step_of_taken hin (by simp [Edge.taken, hrst]), (decodePort_eq_reset_iff e.word).mpr hrst]

/-- Settles O19: each row is a condition on `rst` and `in_valid`, and so is its mask; the counts are evaluated in the kernel. -/
theorem portWordsPartition : Obligations.PortWordsPartition := by
  refine ⟨fun w => ?_, fun w x => ?_, fun w => ?_, by decide +kernel, by decide +kernel, by decide +kernel⟩
  · rw [decodePort_eq_reset_iff, and_resetMask_eq_iff]
  · rw [decodePort_eq_pushb_iff, and_rowMask_eq_pushb_iff, ← portData_eq_setWidth, and_assoc]
  · rw [decodePort_eq_idle_iff, and_rowMask_eq_idle_iff]

/-- Settles O20: the port words by evaluation, the two objects as encodings of well-formed instructions. -/
theorem writtenOutWordsDecode : Obligations.WrittenOutWordsDecode := by
  refine ⟨by decide, by decide, by decide, by decide, by decide, by decide, ?frame, ?outrec⟩
  case frame =>
    exact decodeOfEncode Config.params (.frame 0x06 0x01 0x03 0x00 [0x01, 0x02, 0x03] 0x10 0x49) (by decide)
  case outrec => exact decodeOfEncode Config.params (.outrec 0x06 0x01 0x03 0x00 [0x01, 0x02, 0x03]) (by decide)

end Sys2Proof

/-! The checksum as a linear function of its bytes (R72), and what a change of one byte adds to it. -/

namespace Sys2Proof.Laws

open Machine

/-- The checksum can be kept byte by byte (R71, R74). -/
theorem cksum_append (s : List Byte) (x : Byte) : cksum (s ++ [x]) = ckStep (cksum s) x := foldl_ckStep_append _ s x

/-- The sums that `s` leads to from any start: the starting A enters B once for each byte. -/
theorem foldl_ckStep (k : Sums) (s : List Byte) :
    s.foldl ckStep k = ⟨k.cka + (cksum s).cka, k.ckb + s.length * k.cka + (cksum s).ckb⟩ := by
  induction s using List.reverseRecOn with
  | nil => simp [cksum]
  | append_singleton s x ih =>
    rw [foldl_ckStep_append, cksum_append, ih, ckStep]
    simp only [ckStep_cka, ckStep_ckb, List.length_append, List.length_singleton, Nat.cast_succ, Sums.mk.injEq]
    constructor <;> ring

/-- The first of `n` bytes enters A once and B `n` times (R72). -/
theorem cksum_cons (x : Byte) (s : List Byte) :
    cksum (x :: s) = ⟨x + (cksum s).cka, (s.length + 1 : ℕ) * x + (cksum s).ckb⟩ := by
  rw [cksum, List.foldl_cons, foldl_ckStep]
  simp only [ckStep_cka, ckStep_ckb, Nat.cast_succ, Sums.mk.injEq]
  constructor <;> ring

theorem cksum_zero_cons (s : List Byte) : cksum (0 :: s) = cksum s := rfl

theorem natCast_toNat_byte (x : Byte) : (x.toNat : Byte) = x := by simp

/-- A number that is 0 modulo 256 is the byte 0. -/
theorem natCast_byte_eq_zero {n : Nat} (h : n % 256 = 0) : (n : Byte) = 0 :=
  BitVec.eq_of_toNat_eq h

/-- The closed form of R72 as bytes: a number is taken modulo 256 where it is cast. -/
theorem cksum_eq_natCast (s : List Byte) :
    cksum s = ⟨((s.map BitVec.toNat).sum : ℕ), ((s.zipIdx.map (fun c => (s.length - c.2) * c.1.toNat)).sum : ℕ)⟩ := by
  induction s with
  | nil => rfl
  | cons x s ih =>
    have hlater : ((x :: s).zipIdx.map (fun c => ((x :: s).length - c.2) * c.1.toNat)).sum =
        (s.length + 1) * x.toNat + (s.zipIdx.map (fun c => (s.length - c.2) * c.1.toNat)).sum := by
      simp [List.zipIdx_succ, Function.comp_def]
    simp only [cksum_cons, ih, hlater, List.map_cons, List.sum_cons, Nat.cast_add, Nat.cast_mul, natCast_toNat_byte]

/-- A change at offset `k` moves A by the difference of the two bytes, and B by that times the weight `n - k` (R72, R73). -/
theorem cksum_modify {s : List Byte} {k : Nat} (f : Byte → Byte) (hk : k < s.length) :
    cksum (s.modify k f) =
      ⟨(cksum s).cka + (f s[k] - s[k]), (cksum s).ckb + (s.length - k : ℕ) * (f s[k] - s[k])⟩ := by
  induction s generalizing k with
  | nil => simp at hk
  | cons x s ih =>
    cases k with
    | zero =>
      simp only [List.modify_zero_cons, cksum_cons, List.getElem_cons_zero, List.length_cons, Nat.sub_zero, Sums.mk.injEq]
      constructor <;> ring
    | succ k =>
      simp only [List.modify_succ_cons, cksum_cons, ih (Nat.lt_of_succ_lt_succ hk), List.length_modify,
        List.getElem_cons_succ, List.length_cons, Nat.add_sub_add_right, Sums.mk.injEq]
      constructor <;> ring

end Sys2Proof.Laws

/-! The statements of 40_checksum.md. -/

namespace Sys2Proof

open Machine Laws

/-- Settles O25: the last byte by `cksum_append`, order by the sum of the closed form; `[0, 1]` and `[1, 0]` differ in B. -/
theorem checksumByteByByte : Obligations.ChecksumByteByByte := by
  refine ⟨rfl, cksum_append, cksum_zero_cons, fun s => ?_, fun n => ?_, fun s t hperm => ?_, [0, 1], [1, 0], ?_, by decide⟩
  · simp [cksum_append, ckStep]
  · induction n with
    | zero => rfl
    | succ n ih => rw [List.replicate_succ, cksum_zero_cons, ih]
  · rw [cksum_eq_natCast, cksum_eq_natCast, (hperm.map _).sum_eq]
  · exact List.Perm.swap ..

/-- Settles O26: the number of a cast byte is the number modulo 256. -/
theorem checksumClosedForm : Obligations.ChecksumClosedForm := by
  intro s
  rw [cksum_eq_natCast]
  exact ⟨BitVec.toNat_ofNat .., BitVec.toNat_ofNat ..⟩

/-- Settles O27: `cksum_modify` gives what a change adds to A and to B, and each clause says when that is 0. -/
theorem whatTheChecksumDetects : Obligations.WhatTheChecksumDetects := by
  refine ⟨fun s k x y hy hxy => ?_, fun s k x hk hweight => ?_, fun s j k d hjk hk hdist => ?_⟩
  · obtain ⟨hk, rfl⟩ := List.getElem?_eq_some_iff.mp hy
    rw [List.set_eq_modify, cksum_modify _ hk]
    exact fun h => hxy (sub_eq_zero.mp (add_eq_left.mp h))
  · rw [List.set_eq_modify, cksum_modify _ hk, natCast_byte_eq_zero hweight, zero_mul, add_zero]
  · have hj : j < s.length := hjk.trans hk
    have hk' : k < (s.modify j (· + d)).length := by rwa [List.length_modify]
    have hweight : ((s.length - j : ℕ) : Byte) = (s.length - k : ℕ) + (k - j : ℕ) := by
      rw [← Nat.cast_add, Nat.sub_add_sub_cancel hk.le hjk.le]
    have hzero : ((k - j : ℕ) : Byte) * d = 0 := by
      rw [← natCast_byte_eq_zero hdist, Nat.cast_mul, natCast_toNat_byte, mul_comm]
    rw [cksum_modify _ hk', cksum_modify _ hj, List.length_modify, add_sub_cancel_left, sub_sub_cancel_left, hweight, add_mul,
      hzero, add_zero, mul_neg, add_neg_cancel_right, add_neg_cancel_right]

/-- Settles O24: each sum is a sum of bytes, and that of B takes the new A. -/
theorem checksumStepSums : Obligations.ChecksumStepSums := by
  intro a b x
  have hcka : (ckStep ⟨a, b⟩ x).cka.toNat = (a.toNat + x.toNat) % 256 := BitVec.toNat_add a x
  exact ⟨hcka, hcka ▸ BitVec.toNat_add b (a + x)⟩

end Sys2Proof

/-! Shared laws: each answer of `Decode` from the check that decides it, with the checksum test as the claims state it (R58, R82). -/

namespace Sys2Proof.Laws

open Machine

variable {P : Params}

/-- Where two bytes follow the span, they are its checksum exactly if they are what is left behind it (R58). -/
theorem checksumMatches_iff_drop {s : List Byte} {len : Nat} (hlen : len + 8 = s.length) :
    ChecksumMatches s len ↔ s.drop (6 + len) = [(cksum (slice s 2 (6 + len))).cka, (cksum (slice s 2 (6 + len))).ckb] := by
  obtain ⟨a, b, hdrop⟩ : ∃ a b, s.drop (6 + len) = [a, b] := List.length_eq_two.mp (by rw [List.length_drop]; omega)
  have ha : s[6 + len]? = some a := by rw [← Nat.add_zero (6 + len), ← List.getElem?_drop, hdrop]; rfl
  have hb : s[7 + len]? = some b := by
    rw [show 7 + len = 6 + len + 1 by omega, ← List.getElem?_drop, hdrop]; rfl
  rw [ChecksumMatches, ha, hb, hdrop]
  simp

/-- The declared length determines both length bytes (R57). -/
theorem lenOf_inj {lo hi lo' hi' : Byte} (h : lenOf lo hi = lenOf lo' hi') : lo = lo' ∧ hi = hi' :=
  ⟨by rw [← lenLo_lenOf lo hi, h, lenLo_lenOf], by rw [← lenHi_lenOf lo hi, h, lenHi_lenOf]⟩

/-- The checksum bytes of a raw form match (R80). -/
theorem checksumMatches_rawFrame (P : Params) (f : Frame) : ChecksumMatches (rawFrame P f) f.payload.length := by
  rw [checksumMatches_iff_drop (length_rawFrame P f).symm, slice_rawFrame_body]
  exact drop_rawFrame P f

/-- Enough bytes for a frame have a header. -/
theorem exists_header_of_le_length {s : List Byte} (h : 8 ≤ s.length) :
    ∃ s0 s1 c i lo hi rest, s = s0 :: s1 :: c :: i :: lo :: hi :: rest := by
  match s with
  | s0 :: s1 :: c :: i :: lo :: hi :: rest => exact ⟨s0, s1, c, i, lo, hi, rest, rfl⟩
  | [] | [_] | [_, _] | [_, _, _] | [_, _, _, _] | [_, _, _, _, _] => simp at h

theorem decodeFrame_of_short {s : List Byte} (h : s.length < 8) : decodeFrame P s = .noFrame .tooShort := if_pos h

theorem decodeFrame_of_not_startsWithSync {s : List Byte} (hlong : 8 ≤ s.length) (hsync : ¬ StartsWithSync P s) :
    decodeFrame P s = .noFrame .badSync := by
  obtain ⟨s0, s1, c, i, lo, hi, rest, rfl⟩ := exists_header_of_le_length hlong
  have hpair : s0 ≠ P.sync0 ∨ s1 ≠ P.sync1 := by simpa [StartsWithSync, imp_iff_not_or] using hsync
  rw [decodeFrame, if_neg (Nat.not_lt.mpr hlong), if_pos hpair]

theorem decodeFrame_of_length_ne {s rest : List Byte} {c i lo hi : Byte}
    (hs : s = P.sync0 :: P.sync1 :: c :: i :: lo :: hi :: rest) (hlong : 8 ≤ s.length) (hlen : lenOf lo hi + 8 ≠ s.length) :
    decodeFrame P s = .noFrame .lenMismatch := by
  subst hs
  rw [decodeFrame, if_neg (Nat.not_lt.mpr hlong), if_neg (by simp), if_pos hlen]

theorem decodeFrame_of_not_checksumMatches {s rest : List Byte} {c i lo hi : Byte}
    (hs : s = P.sync0 :: P.sync1 :: c :: i :: lo :: hi :: rest) (hlen : lenOf lo hi + 8 = s.length)
    (hck : ¬ ChecksumMatches s (lenOf lo hi)) : decodeFrame P s = .noFrame .badCksum := by
  have hlong : ¬ s.length < 8 := by omega
  rw [checksumMatches_iff_drop hlen] at hck
  subst hs
  rw [decodeFrame, if_neg hlong, if_neg (by simp), if_neg (not_not.mpr hlen)]
  exact if_pos hck

end Sys2Proof.Laws

/-! Shared laws: what one flipped bit leaves as it was, and what it changes (R85). -/

namespace Sys2Proof.Laws

open Machine

variable {P : Params}

@[simp] theorem length_flipBit (s : List Byte) (k j : Nat) : (flipBit s k j).length = s.length := List.length_modify ..

theorem xor_twoPow_ne (x : Byte) {j : Nat} (hj : j < 8) : x ^^^ BitVec.twoPow 8 j ≠ x := by
  intro h
  have hbit := congrArg (·.getLsbD j) h
  simp [hj] at hbit

theorem getElem?_flipBit_of_ne {s : List Byte} {k m : Nat} (j : Nat) (h : k ≠ m) : (flipBit s k j)[m]? = s[m]? :=
  List.getElem?_modify_ne _ _ h

/-- The byte with the flipped bit is another byte. -/
theorem getElem?_flipBit_self_ne {s : List Byte} {k j : Nat} (hk : k < s.length) (hj : j < 8) : (flipBit s k j)[k]? ≠ s[k]? := by
  rw [flipBit, List.getElem?_modify_eq, List.getElem?_eq_getElem hk]
  exact fun h => xor_twoPow_ne s[k] hj (Option.some.inj h)

theorem slice_flipBit_of_le {s : List Byte} {k a b : Nat} (j : Nat) (h : b ≤ k) : slice (flipBit s k j) a b = slice s a b := by
  rw [slice, flipBit, List.take_modify, List.modify_eq_self (by rw [List.length_take]; omega), slice]

/-- The slice that holds the flipped bit is the slice with that bit flipped. -/
theorem slice_flipBit_of_mem {s : List Byte} {k a b : Nat} (j : Nat) (ha : a ≤ k) :
    slice (flipBit s k j) a b = flipBit (slice s a b) (k - a) j := by
  rw [slice, flipBit, List.take_modify, List.drop_modify_of_ge _ _ _ _ ha, slice, flipBit]

/-- A flipped bit shows in A (R73). -/
theorem cksum_flipBit_cka_ne {s : List Byte} {k j : Nat} (hk : k < s.length) (hj : j < 8) :
    (cksum (flipBit s k j)).cka ≠ (cksum s).cka := by
  rw [flipBit, cksum_modify _ hk]
  exact fun h => xor_twoPow_ne s[k] hj (sub_eq_zero.mp (add_eq_left.mp h))

/-- A flipped bit behind the sync pair breaks the checksum: in the span it changes A and not the stored byte, behind the span it
changes a stored byte and not the sums. -/
theorem not_checksumMatches_flipBit {s : List Byte} {len k j : Nat} (hck : ChecksumMatches s len) (hlen : len + 8 = s.length)
    (hk2 : 2 ≤ k) (hk : k < s.length) (hj : j < 8) : ¬ ChecksumMatches (flipBit s k j) len := by
  rintro ⟨ha', hb'⟩
  obtain ⟨ha, hb⟩ := hck
  by_cases hspan : k < 6 + len
  · rw [getElem?_flipBit_of_ne j (by omega), ha, slice_flipBit_of_mem j hk2, Option.some.injEq] at ha'
    exact cksum_flipBit_cka_ne (by simp only [slice, List.length_drop, List.length_take]; omega) hj ha'.symm
  · rw [slice_flipBit_of_le j (Nat.le_of_not_lt hspan)] at ha' hb'
    obtain rfl | rfl : k = 6 + len ∨ k = 7 + len := by omega
    · exact getElem?_flipBit_self_ne hk hj (ha'.trans ha.symm)
    · exact getElem?_flipBit_self_ne hk hj (hb'.trans hb.symm)

/-- A flipped bit in the sync pair breaks it. -/
theorem not_startsWithSync_flipBit {s : List Byte} {k j : Nat} (hsync : StartsWithSync P s) (hk : k < 2) (hj : j < 8) :
    ¬ StartsWithSync P (flipBit s k j) := by
  intro hsync'
  have hbyte := congrArg (·[k]?) (hsync'.trans hsync.symm)
  simp only [List.getElem?_take, hk, if_true] at hbyte
  exact getElem?_flipBit_self_ne (hk.trans_le (two_le_length_of_startsWithSync hsync)) hj hbyte

theorem startsWithSync_flipBit {s : List Byte} {k : Nat} (j : Nat) (hsync : StartsWithSync P s) (hk : 2 ≤ k) :
    StartsWithSync P (flipBit s k j) :=
  (slice_flipBit_of_le (a := 0) j hk).trans hsync

end Sys2Proof.Laws

/-! The statements of 41_codec.md. -/

namespace Sys2Proof

open Machine Laws

/-- Settles O28: on the domain the answer is the raw form, and each part of it stands where R80 puts it. -/
theorem encodeOnItsDomain : Obligations.EncodeOnItsDomain := by
  intro P f
  refine ⟨fun hfield => ?_, fun hlong => if_neg (Nat.not_le.mpr hlong)⟩
  exact ⟨rawFrame P f, if_pos hfield, length_rawFrame P f, rfl, lenOf_lenLo_lenHi hfield, slice_rawFrame_payload P f,
    checksumMatches_rawFrame P f⟩

/-- Settles O29: `Decode` reads a raw form back, and answers a frame on nothing else. -/
theorem decodeAcceptsExactlyTheRawForms : Obligations.DecodeAcceptsExactlyTheRawForms :=
  fun _ _ _ => ⟨eq_rawFrame_of_decodeFrame, fun ⟨hfield, hs⟩ => hs ▸ decodeFrame_rawFrame hfield⟩

/-- Settles O30, one case for each check that can decide: its lemma gives the answer, and each clause is read off that answer.
`eq_true` and `eq_false` hand `simp` a decided check as one proposition. -/
theorem decodeReasons : Obligations.DecodeReasons := by
  intro P s
  by_cases hshort : s.length < 8
  case pos =>
    have hother : ∀ n, n + 8 ≠ s.length := by omega
    simp [decodeFrame_of_short hshort, hshort, hother]
  have hlong : 8 ≤ s.length := Nat.le_of_not_lt hshort
  by_cases hsync : StartsWithSync P s
  case neg => simp [decodeFrame_of_not_startsWithSync hlong hsync, hlong, hsync]
  obtain ⟨s0, s1, c, i, lo, hi, rest, hs⟩ := exists_header_of_le_length hlong
  obtain ⟨rfl, rfl⟩ : s0 = P.sync0 ∧ s1 = P.sync1 := by simpa [StartsWithSync, hs] using hsync
  obtain ⟨hclass, hid, hlo, hhi⟩ : s[2]? = some c ∧ s[3]? = some i ∧ s[4]? = some lo ∧ s[5]? = some hi := by simp [hs]
  by_cases hlen : lenOf lo hi + 8 = s.length
  case neg => simp [decodeFrame_of_length_ne hs hlong hlen, hlong, eq_true hsync, hlo, hhi, hlen]
  by_cases hck : ChecksumMatches s (lenOf lo hi)
  case neg =>
    simp [decodeFrame_of_not_checksumMatches hs hlen hck, hlong, eq_true hsync, hlo, hhi, hlen, eq_false hck, -not_and]
  case pos =>
    have hframe := decodeFrame_of_checks hs hlen ((checksumMatches_iff_drop hlen).mp hck)
    simp [hframe, hlong, eq_true hsync, hclass, hid, hlo, hhi, hlen, eq_true hck]

/-- Settles O31: the flip breaks the sync pair, the declared length or the checksum, by the byte it hits, and leaves the checks before
that one as they were. -/
theorem singleBitFlipsAreDetected : Obligations.SingleBitFlipsAreDetected := by
  intro P f k j hfield hk hj
  have hraw : k < (rawFrame P f).length := (length_rawFrame P f).symm ▸ hk
  have hlength : (flipBit (rawFrame P f) k j).length = f.payload.length + 8 := by rw [length_flipBit, length_rawFrame]
  have hdeclared : lenOf (lenLo f.payload.length) (lenHi f.payload.length) = f.payload.length := lenOf_lenLo_lenHi hfield
  obtain ⟨-, hbadSync, hchecks, -⟩ := decodeReasons P (flipBit (rawFrame P f) k j)
  by_cases hpair : k < 2
  case pos =>
    rw [if_pos hpair]
    exact hbadSync.mpr ⟨by omega, not_startsWithSync_flipBit rfl hpair hj⟩
  rw [if_neg hpair]
  have hsync : StartsWithSync P (flipBit (rawFrame P f) k j) := startsWithSync_flipBit j rfl (Nat.le_of_not_lt hpair)
  by_cases hlenByte : k = 4 ∨ k = 5
  case pos =>
    rw [if_pos hlenByte]
    obtain ⟨lo, hlo⟩ : ∃ lo, (flipBit (rawFrame P f) k j)[4]? = some lo := ⟨_, List.getElem?_eq_getElem (by omega)⟩
    obtain ⟨hi, hhi⟩ : ∃ hi, (flipBit (rawFrame P f) k j)[5]? = some hi := ⟨_, List.getElem?_eq_getElem (by omega)⟩
    obtain ⟨hmismatch, -⟩ := hchecks lo hi hlo hhi
    refine hmismatch.mpr ⟨by omega, hsync, fun hsame => ?_⟩
    obtain ⟨rfl, rfl⟩ := lenOf_inj ((Nat.add_right_cancel (hsame.trans hlength)).trans hdeclared.symm)
    obtain rfl | rfl := hlenByte
    · exact getElem?_flipBit_self_ne hraw hj hlo
    · exact getElem?_flipBit_self_ne hraw hj hhi
  case neg =>
    rw [if_neg hlenByte]
    have hlo : (flipBit (rawFrame P f) k j)[4]? = some (lenLo f.payload.length) := getElem?_flipBit_of_ne j (by omega)
    have hhi : (flipBit (rawFrame P f) k j)[5]? = some (lenHi f.payload.length) := getElem?_flipBit_of_ne j (by omega)
    obtain ⟨-, hbadCksum, -⟩ := hchecks _ _ hlo hhi
    rw [hdeclared] at hbadCksum
    exact hbadCksum.mpr ⟨hsync, hlength.symm, not_checksumMatches_flipBit (checksumMatches_rawFrame P f)
      (length_rawFrame P f).symm (Nat.le_of_not_lt hpair) hraw hj⟩

end Sys2Proof

/-! Shared laws: the sync search by positions, and trimming byte by byte and over a concatenation (R101, R102). -/

namespace Sys2Proof.Laws

open Machine

variable {P : Params}

theorem findSync_cons (P : Params) (x : Byte) (s : List Byte) :
    findSync P (x :: s) = if PairAt P (x :: s) 0 then some 0 else (findSync P s).map (· + 1) := by
  simp [findSync, PairAt, List.head?_eq_getElem?]

/-- The search answers the least position of the pair (R101). -/
theorem findSync_eq_some_iff {s : List Byte} {p : Nat} :
    findSync P s = some p ↔ PairAt P s p ∧ ∀ q, q < p → ¬ PairAt P s q := by
  induction s generalizing p with
  | nil => simp
  | cons x s ih =>
    rw [findSync_cons]
    by_cases h0 : PairAt P (x :: s) 0
    · rw [if_pos h0, Option.some.injEq]
      refine ⟨?_, fun ⟨_, hleast⟩ => ?_⟩
      · rintro rfl
        exact ⟨h0, fun q hq => absurd hq (Nat.not_lt_zero q)⟩
      · exact (Nat.eq_zero_of_not_pos fun hp => hleast 0 hp h0).symm
    · rw [if_neg h0]
      cases p with
      | zero => simpa using fun hpair : PairAt P (x :: s) 0 => h0 hpair
      | succ p =>
        have hleast : (∀ q, q < p + 1 → ¬ PairAt P (x :: s) q) ↔ ∀ q, q < p → ¬ PairAt P s q :=
          Nat.forall_lt_succ_left.trans (and_iff_right h0)
        have hmap : (findSync P s).map (· + 1) = some (p + 1) ↔ findSync P s = some p := by simp
        exact hmap.trans (ih.trans (and_congr Iff.rfl hleast.symm))

/-- The search answers nothing exactly where the pair stands nowhere (R101). -/
theorem findSync_eq_none_iff {s : List Byte} : findSync P s = none ↔ ∀ p, ¬ PairAt P s p := by
  induction s with
  | nil => simp
  | cons x s ih =>
    rw [findSync_cons, ← Nat.and_forall_add_one]
    by_cases h0 : PairAt P (x :: s) 0
    · rw [if_pos h0]
      exact iff_of_false (Option.some_ne_none 0) fun hnone => hnone.left h0
    · rw [if_neg h0, and_iff_right h0, Option.map_eq_none_iff]
      exact ih

theorem startsWithSync_cons_cons (x y : Byte) (s : List Byte) :
    StartsWithSync P (x :: y :: s) ↔ x = P.sync0 ∧ y = P.sync1 := by simp [StartsWithSync]

@[simp] theorem trim_nil (P : Params) : trim P [] = [] := rfl

theorem trim_singleton (P : Params) (x : Byte) : trim P [x] = if x = P.sync0 then [P.sync0] else [] := by
  simp [trim, findSync]

/-- A byte before another one that does not start the pair is discarded (R102). -/
theorem trim_cons_cons {x y : Byte} {s : List Byte} (h : ¬ StartsWithSync P (x :: y :: s)) :
    trim P (x :: y :: s) = trim P (y :: s) := by
  have hpair : ¬ PairAt P (x :: y :: s) 0 := by simpa [StartsWithSync, PairAt] using h
  rw [trim, findSync_cons, if_neg hpair, trim, List.getLast?_cons_cons]
  cases findSync P (y :: s) <;> rfl

theorem startsWithSync_append {s : List Byte} (h : StartsWithSync P s) (t : List Byte) : StartsWithSync P (s ++ t) := by
  rw [StartsWithSync, List.take_append_of_le_length (two_le_length_of_startsWithSync h)]
  exact h

/-- What trimming discards, it discards whatever follows. -/
theorem trim_append (P : Params) (s t : List Byte) : trim P (trim P s ++ t) = trim P (s ++ t) := by
  match s with
  | [] => rfl
  | [x] =>
    rw [trim_singleton]
    by_cases hx : x = P.sync0
    · rw [if_pos hx, hx]
    · rw [if_neg hx]
      cases t with
      | nil => simp [trim_singleton, hx]
      | cons y t => exact (trim_cons_cons (by simp [startsWithSync_cons_cons, hx])).symm
  | x :: y :: s =>
    by_cases hsync : StartsWithSync P (x :: y :: s)
    · rw [trim_pair hsync]
    · have happend : ¬ StartsWithSync P (x :: y :: (s ++ t)) := hsync
      rw [trim_cons_cons hsync, trim_append P (y :: s) t]
      exact (trim_cons_cons happend).symm

@[simp] theorem trim_trim (P : Params) (s : List Byte) : trim P (trim P s) = trim P s := by
  simpa using trim_append P s []

theorem startsWithSync_trim {s : List Byte} (h : 2 ≤ (trim P s).length) : StartsWithSync P (trim P s) := by
  obtain hsync | ht | ht := trim_shape P s
  · exact hsync
  · simp [ht] at h
  · simp [ht] at h

theorem trim_of_noPair {s : List Byte} (h : NoPair P s) :
    trim P s = if s.getLast? = some P.sync0 then [P.sync0] else [] := by
  rw [trim, h]

theorem length_trim_of_noPair {s : List Byte} (h : NoPair P s) : (trim P s).length < 2 := by
  rw [trim_of_noPair h]
  split <;> simp

end Sys2Proof.Laws

/-! Shared laws: the verdict on a candidate whose length bytes are there, and that later bytes do not change it (R103). -/

namespace Sys2Proof.Laws

open Machine

variable {P : Params}

/-- What `Classify` makes of the answer of `Decode` on a candidate of `n` bytes (R103). -/
def decodedVerdict (n : Nat) : DecodeResult → Verdict
  | .frame f => .accept f n
  | .noFrame _ => .reject .badCksum

/-- `Classify` where the length bytes are there, as one equation (R103). -/
theorem classify_declared {s : Memory} {lo hi : Byte} (hlo : s[4]? = some lo) (hhi : s[5]? = some hi) :
    classify P s =
      if P.maxpay < lenOf lo hi then .reject .lenOverMax
      else if s.length < lenOf lo hi + overhead then .wait
      else decodedVerdict (lenOf lo hi + overhead) (decodeFrame P (s.take (lenOf lo hi + overhead))) := by
  match s with
  | [] | [_] | [_, _] | [_, _, _] | [_, _, _, _] | [_, _, _, _, _] => simp at hhi
  | _ :: _ :: _ :: _ :: lo' :: hi' :: _ =>
    obtain rfl : lo' = lo := Option.some.inj hlo
    obtain rfl : hi' = hi := Option.some.inj hhi
    rw [classify]
    split
    · rfl
    · split
      · rfl
      · cases decodeFrame P _ <;> rfl

theorem classify_of_short {s : Memory} (h : s.length < hdr) : classify P s = .wait := by
  obtain ⟨-, hwait⟩ | ⟨lo, hi, -, hhi, -⟩ := classify_cases P s
  · exact hwait
  · exact absurd (List.getElem?_eq_some_iff.mp hhi).choose (Nat.not_lt.mpr (Nat.le_of_lt_succ h))

/-- A verdict is reached on the candidate's own bytes (R103). -/
theorem classify_append {s : Memory} (h : classify P s ≠ .wait) (t : Memory) : classify P (s ++ t) = classify P s := by
  obtain ⟨-, hwait⟩ | ⟨lo, hi, hlo, hhi, -⟩ := classify_cases P s
  · exact absurd hwait h
  · have hlo' : (s ++ t)[4]? = some lo := getElem?_of_prefix (List.prefix_append s t) hlo
    have hhi' : (s ++ t)[5]? = some hi := getElem?_of_prefix (List.prefix_append s t) hhi
    rw [classify_declared hlo hhi] at h
    rw [classify_declared hlo hhi, classify_declared hlo' hhi']
    by_cases hmax : P.maxpay < lenOf lo hi
    · rw [if_pos hmax, if_pos hmax]
    · by_cases hshort : s.length < lenOf lo hi + overhead
      · rw [if_neg hmax, if_pos hshort] at h
        exact absurd rfl h
      · have hshort' : ¬ (s ++ t).length < lenOf lo hi + overhead := by rw [List.length_append]; omega
        rw [if_neg hmax, if_neg hmax, if_neg hshort, if_neg hshort', List.take_append_of_le_length (Nat.le_of_not_lt hshort)]

/-- A whole candidate fails `Decode` for its checksum only (R82, R103). -/
theorem eq_badCksum_of_whole_candidate {s : List Byte} {lo hi : Byte} {r : Cause} (hsync : StartsWithSync P s)
    (hlo : s[4]? = some lo) (hhi : s[5]? = some hi) (hlen : lenOf lo hi + 8 = s.length)
    (hdecode : decodeFrame P s = .noFrame r) : r = .badCksum := by
  obtain ⟨htooShort, hbadSync, hchecks, hnever⟩ := decodeReasons P s
  obtain ⟨hmismatch, -, -⟩ := hchecks lo hi hlo hhi
  cases r with
  | badCksum => rfl
  | tooShort => have := htooShort.mp hdecode; omega
  | badSync => exact absurd hsync (hbadSync.mp hdecode).right
  | lenMismatch => exact absurd hlen (hmismatch.mp hdecode).right.right
  | lenOverMax => exact absurd hdecode hnever

/-- An accepted candidate begins with the frame's raw form (R87, R103). -/
theorem eq_rawFrame_append_of_accept {s : Memory} {f : Frame} {n : Nat} (h : classify P s = .accept f n) :
    s = rawFrame P f ++ s.drop n := by
  obtain ⟨-, hc⟩ | ⟨lo, hi, -, -, ⟨-, hc⟩ | ⟨-, -, hc⟩ | ⟨-, -, ⟨g, hd, hc⟩ | ⟨r, -, hc⟩⟩⟩ := classify_cases P s
  case inr.inr.inr.inl =>
    obtain ⟨rfl, rfl⟩ := Verdict.accept.inj (hc.symm.trans h)
    obtain ⟨-, hraw⟩ := eq_rawFrame_of_decodeFrame hd
    rw [← hraw, List.take_append_drop]
  all_goals rw [hc] at h; cases h

end Sys2Proof.Laws

/-! Shared laws: `Drain` as the relation of R104, whose four rules are the cases of every induction over the scan, and what it does
with a concatenation (R104, R110). -/

namespace Sys2Proof.Laws

open Machine

variable {P : Params}

/-- The loop only sees the trimmed sequence (R104). -/
theorem drain_trim (P : Params) (s : Memory) : drain P (trim P s) = drain P s := by
  rw [drain_unfold, drain_unfold P s, trim_trim]

theorem drain_trim_append (P : Params) (s t : Memory) : drain P (trim P s ++ t) = drain P (s ++ t) := by
  rw [← drain_trim, trim_append, drain_trim]

theorem drain_of_trim_short {s : Memory} (h : (trim P s).length < 2) : drain P s = ([], trim P s) := by
  rw [drain_unfold, if_pos h]

/-- After a rejection the scan goes on one byte further (R104, outcome 3). -/
theorem drain_of_reject {s : Memory} {r : Cause} (hsync : StartsWithSync P s) (hreject : classify P s = .reject r) :
    drain P s = drain P (s.drop 1) := by
  rw [drain_unfold, trim_pair hsync, if_neg (Nat.not_lt.mpr (two_le_length_of_startsWithSync hsync)), hreject]

/-- The bounded loop goes the way of the unbounded one (R104, R105). -/
theorem drains_drain (P : Params) (s : Memory) : Drains P s (drain P s).1 (drain P s).2 := by
  have hle := length_trim_le P s
  by_cases hshort : (trim P s).length < 2
  · rw [drain_of_trim_short hshort]
    exact .nothing hshort
  · have h2 : 2 ≤ (trim P s).length := Nat.le_of_not_lt hshort
    have hsync : StartsWithSync P (trim P s) := startsWithSync_trim h2
    rw [← drain_trim]
    cases hc : classify P (trim P s) with
    | wait =>
      rw [drain_of_wait hsync hc]
      exact .waits h2 hc
    | accept f n =>
      obtain ⟨hn, -⟩ := classify_accept_length hc
      rw [drain_of_accept hsync hc]
      exact .accepts h2 hc (drains_drain P ((trim P s).drop n))
    | reject r =>
      rw [drain_of_reject hsync hc]
      exact .rejects h2 hc (drains_drain P ((trim P s).drop 1))
termination_by s.length
decreasing_by all_goals simp only [List.length_drop]; omega

/-- The relation determines frames and tail (R104). -/
theorem drain_of_drains {s rest : Memory} {out : List Frame} (h : Drains P s out rest) : drain P s = (out, rest) := by
  induction h with
  | nothing hshort => exact drain_of_trim_short hshort
  | waits h2 hc => rw [← drain_trim, drain_of_wait (startsWithSync_trim h2) hc]
  | accepts h2 hc _ ih => rw [← drain_trim, drain_of_accept (startsWithSync_trim h2) hc, ih]
  | rejects h2 hc _ ih => rw [← drain_trim, drain_of_reject (startsWithSync_trim h2) hc, ih]

theorem drain_append_of_drains {s rest : Memory} {out : List Frame} (h : Drains P s out rest) (t : Memory) :
    drain P (s ++ t) = (out ++ (drain P (rest ++ t)).1, (drain P (rest ++ t)).2) := by
  induction h with
  | nothing => exact (drain_trim_append ..).symm
  | waits => exact (drain_trim_append ..).symm
  | @accepts s rest f n out h2 hc _ ih =>
    obtain ⟨-, hn⟩ := classify_accept_length hc
    have hc' : classify P (trim P s ++ t) = .accept f n := (classify_append (by simp [hc]) t).trans hc
    rw [← drain_trim_append, drain_of_accept (startsWithSync_append (startsWithSync_trim h2) t) hc',
      List.drop_append_of_le_length hn, ih]
    rfl
  | @rejects s rest r out h2 hc _ ih =>
    have hc' : classify P (trim P s ++ t) = .reject r := (classify_append (by simp [hc]) t).trans hc
    rw [← drain_trim_append, drain_of_reject (startsWithSync_append (startsWithSync_trim h2) t) hc',
      List.drop_append_of_le_length (Nat.le_of_succ_le h2), ih]

/-- A scan of more bytes is a scan of the first ones, and then one of its tail with the others behind it (R110). -/
theorem drain_append (P : Params) (s t : Memory) :
    drain P (s ++ t) = ((drain P s).1 ++ (drain P ((drain P s).2 ++ t)).1, (drain P ((drain P s).2 ++ t)).2) :=
  drain_append_of_drains (drains_drain P s) t

/-- Each frame takes eight bytes at least, and the tail the bytes that are left (R113). -/
theorem length_of_drains {s rest : Memory} {out : List Frame} (h : Drains P s out rest) :
    8 * out.length + rest.length ≤ s.length := by
  induction h with
  | nothing | waits => simpa using length_trim_le P _
  | @accepts s rest f n out _ hc _ ih =>
    have hle := length_trim_le P s
    obtain ⟨h8, hn⟩ := classify_accept_length hc
    simp only [List.length_drop, List.length_cons] at ih ⊢
    omega
  | @rejects s rest r out _ _ _ ih =>
    have hle := length_trim_le P s
    simp only [List.length_drop] at ih
    omega

theorem length_drain_le (P : Params) (s : Memory) : 8 * (drain P s).1.length ≤ s.length :=
  Nat.le_of_add_right_le (length_of_drains (drains_drain P s))

theorem drain_frames_of_short {s : Memory} (h : s.length < 8) : (drain P s).1 = [] := by
  have hle := length_drain_le P s
  exact List.eq_nil_of_length_eq_zero (by omega)

/-- Between operations there is nothing to scan (R16). -/
theorem drain_of_accInv {acc : Memory} (h : AccInv P acc) : drain P acc = ([], acc) := by
  obtain rfl | rfl | ⟨-, hsync, hwait⟩ := h
  · exact drain_nil P
  · exact drain_sync0 P
  · exact drain_of_wait hsync hwait

/-- Bytes fed one by one are one scan of all of them (R110). -/
theorem feed_eq_drain {acc : Memory} (h : AccInv P acc) (t : List Byte) : feed P acc t = drain P (acc ++ t) := by
  induction t generalizing acc with
  | nil => rw [List.append_nil, drain_of_accInv h, feed_nil]
  | cons x t ih =>
    obtain ⟨hinv, -⟩ := drain_inv P (acc ++ [x])
    rw [feed_cons, pushByte, append_eq, ih hinv, List.append_cons acc x t, drain_append P (acc ++ [x]) t]

/-- Chunks fed one after the other are their concatenation fed (R109). -/
theorem foldl_feed (P : Params) (chunks : List (List Byte)) (out : List Frame) (acc : Memory) :
    chunks.foldl (fun r chunk => (r.1 ++ (feed P r.2 chunk).1, (feed P r.2 chunk).2)) (out, acc) =
      (out ++ (feed P acc chunks.flatten).1, (feed P acc chunks.flatten).2) := by
  induction chunks generalizing out acc with
  | nil => simp
  | cons chunk chunks ih => simp [ih, feed_append]

/-- A valid frame in front is emitted, and the scan goes on behind it. -/
theorem drain_rawFrame_append {f : Frame} (hok : P.Ok) (hf : f.payload.length ≤ P.maxpay) (t : Memory) :
    drain P (rawFrame P f ++ t) = (f :: (drain P t).1, (drain P t).2) := by
  rw [drain_append, drain_rawFrame hok hf]
  rfl

/-- Valid frames back to back in front are all emitted. -/
theorem drain_rawFrames_append {fs : List Frame} (hok : P.Ok) (hfs : ∀ f ∈ fs, f.payload.length ≤ P.maxpay) (t : Memory) :
    drain P (fs.flatMap (rawFrame P) ++ t) = (fs ++ (drain P t).1, (drain P t).2) := by
  induction fs with
  | nil => rfl
  | cons f fs ih =>
    obtain ⟨hf, hfs⟩ := List.forall_mem_cons.mp hfs
    rw [List.flatMap_cons, List.append_assoc, drain_rawFrame_append hok hf, ih hfs]
    rfl

/-- Noise before a candidate is discarded, also noise that ends with a `SYNC0` (R112). -/
theorem drain_noise_append {noise s : Memory} (hdistinct : P.Distinct) (hnoise : NoPair P noise) (hsync : StartsWithSync P s) :
    drain P (noise ++ s) = drain P s := by
  rw [← drain_trim_append, trim_of_noPair hnoise]
  split
  · match s with
    | [] | [_] => simp [StartsWithSync] at hsync
    | x :: y :: rest =>
      obtain ⟨rfl, rfl⟩ := (startsWithSync_cons_cons x y rest).mp hsync
      have hnot : ¬ StartsWithSync P (P.sync0 :: P.sync0 :: P.sync1 :: rest) := by
        simpa [startsWithSync_cons_cons] using hdistinct
      rw [List.singleton_append, ← drain_trim, trim_cons_cons hnot, drain_trim]
  · rfl

end Sys2Proof.Laws

/-! Shared laws: one byte pushed onto a candidate whose header is there (R103, R116). -/

namespace Sys2Proof.Laws

open Machine

variable {P : Params}

/-- Pushing one byte is one scan with the byte appended (R107). -/
theorem pushByte_eq (P : Params) (acc : Memory) (x : Byte) : pushByte P acc x = drain P (acc ++ [x]) := rfl

/-- What a byte can do in phase `BODY`: the candidate still waits, is the whole of an accepted frame, or fails its checksum (R116). -/
theorem pushByte_body_cases {acc : Memory} {lo hi : Byte} (hinv : AccInv P acc) (hlo : acc[4]? = some lo)
    (hhi : acc[5]? = some hi) (x : Byte) :
    (acc.length + 1 < lenOf lo hi + 8 ∧ pushByte P acc x = ([], acc ++ [x])) ∨
    (acc.length + 1 = lenOf lo hi + 8 ∧ ∃ f, decodeFrame P (acc ++ [x]) = .frame f ∧
      classify P (acc ++ [x]) = .accept f (acc ++ [x]).length ∧ pushByte P acc x = ([f], [])) ∨
    (acc.length + 1 = lenOf lo hi + 8 ∧ decodeFrame P (acc ++ [x]) = .noFrame .badCksum ∧
      classify P (acc ++ [x]) = .reject .badCksum ∧ pushByte P acc x = drain P ((acc ++ [x]).drop 1)) := by
  have h6 : hdr ≤ acc.length := (List.getElem?_eq_some_iff.mp hhi).choose
  obtain ⟨hsync, hwait⟩ := candidate_of_accInv hinv (Nat.le_trans (by decide) h6)
  obtain ⟨lo', hi', hlo', hhi', hmax, hlen⟩ := declared_of_classify_wait hwait h6
  obtain rfl : lo' = lo := Option.some.inj (hlo'.symm.trans hlo)
  obtain rfl : hi' = hi := Option.some.inj (hhi'.symm.trans hhi)
  have hsync' : StartsWithSync P (acc ++ [x]) := startsWithSync_append hsync [x]
  have hlo' : (acc ++ [x])[4]? = some lo' := getElem?_of_prefix (List.prefix_append acc [x]) hlo
  have hhi' : (acc ++ [x])[5]? = some hi' := getElem?_of_prefix (List.prefix_append acc [x]) hhi
  have hlength : (acc ++ [x]).length = acc.length + 1 := List.length_append
  have hc : classify P (acc ++ [x]) = _ := classify_declared hlo' hhi'
  rw [if_neg (Nat.not_lt.mpr hmax)] at hc
  by_cases hshort : (acc ++ [x]).length < lenOf lo' hi' + overhead
  · rw [if_pos hshort] at hc
    exact .inl ⟨hlength ▸ hshort, drain_of_wait hsync' hc⟩
  · have hwhole : lenOf lo' hi' + overhead = (acc ++ [x]).length := by omega
    rw [if_neg hshort, hwhole, List.take_length] at hc
    cases hd : decodeFrame P (acc ++ [x]) with
    | frame f =>
      rw [hd] at hc
      refine .inr (.inl ⟨hlength ▸ hwhole.symm, f, rfl, hc, ?_⟩)
      rw [pushByte_eq, drain_of_accept hsync' hc, List.drop_length, drain_nil]
    | noFrame r =>
      rw [hd] at hc
      obtain rfl := eq_badCksum_of_whole_candidate hsync' hlo' hhi' hwhole hd
      exact .inr (.inr ⟨hlength ▸ hwhole.symm, rfl, hc, drain_of_reject hsync' hc⟩)

theorem slice_append_of_le {s : List Byte} {j : Nat} (h : j ≤ s.length) (i : Nat) (t : List Byte) :
    slice (s ++ t) i j = slice s i j := by
  rw [slice, List.take_append_of_le_length h, slice]

end Sys2Proof.Laws

/-! Shared laws: sequences of instructions, as far as they do nothing or deliver bytes (R108, R109). -/

namespace Sys2Proof.Laws

open Machine

theorem execAll_cons_of_next {i : Instr} {s t : State} (h : exec i s = .next t) (is : List Instr) :
    execAll (i :: is) s = execAll is t := by
  rw [execAll, h]

theorem execAll_replicate_idle (n : Nat) (is : List Instr) (s : State) :
    execAll (List.replicate n .idle ++ is) s = execAll is s := by
  induction n with
  | zero => rfl
  | succ n ih => exact (execAll_cons_of_next rfl _).trans ih

/-- Two sequences with the same outcome from every state have it behind the same beginning. -/
theorem execAll_append_congr {is js : List Instr} (h : ∀ s, execAll is s = execAll js s) (before : List Instr) (s : State) :
    execAll (before ++ is) s = execAll (before ++ js) s := by
  induction before generalizing s with
  | nil => exact h s
  | cons i before ih =>
    rw [List.cons_append, List.cons_append, execAll, execAll]
    simp only [ih]

/-- Instructions that deliver bytes feed them to the block, one instruction's after the other's (R109). -/
theorem execAll_map_of_delivers {α : Type} {instr : α → Instr} {bytes : α → List Byte}
    (h : ∀ a, deliveredBytes Config.params (instr a) = some (bytes a)) (as : List α) (s : State) :
    execAll (as.map instr) s = .next (s.absorb (feed Config.params s.acc (as.flatMap bytes))) := by
  induction as generalizing s with
  | nil => simp [execAll, absorb_eq]
  | cons a as ih =>
    have hexec : exec (instr a) s = .next (s.absorb (feed Config.params s.acc (bytes a))) :=
      (exec_eq_execOf ..).trans (execOf_deliveredBytes (h a) s)
    rw [List.map_cons, execAll_cons_of_next hexec, ih]
    simp [absorb_eq, feed_append]

end Sys2Proof.Laws

/-! Shared laws: where the emitted frames stand in the scanned bytes (R114), and the scan under a larger `MAXPAY` (R115). -/

namespace Sys2Proof.Laws

open Machine

variable {P : Params}

/-- Bytes put in front widen the first gap, or the last bytes where there is no frame. -/
theorem exists_interleaved_append (P : Params) (front : List Byte) (found : List (List Byte × Frame)) (last : List Byte) :
    ∃ found' last', found'.map Prod.snd = found.map Prod.snd ∧
      front ++ interleaved P found last = interleaved P found' last' ∧ last <:+ last' := by
  cases found with
  | nil => exact ⟨[], front ++ last, rfl, rfl, List.suffix_append front last⟩
  | cons c found =>
    obtain ⟨gap, f⟩ := c
    exact ⟨(front ++ gap, f) :: found, last, rfl, by simp [interleaved], List.suffix_refl last⟩

/-- The raw forms of the emitted frames stand in the scanned bytes in order, and the tail behind them (R114). -/
theorem exists_interleaved_of_drains {s rest : Memory} {out : List Frame} (h : Drains P s out rest) :
    ∃ found last, out = found.map Prod.snd ∧ s = interleaved P found last ∧ rest <:+ last := by
  induction h with
  | @nothing s | @waits s => exact ⟨[], s, rfl, rfl, trim_suffix P s⟩
  | @accepts s rest f n out _ hc _ ih =>
    obtain ⟨found, last, rfl, hs, hlast⟩ := ih
    obtain ⟨gap, hgap⟩ := trim_suffix P s
    refine ⟨(gap, f) :: found, last, rfl, ?_, hlast⟩
    calc s
      _ = gap ++ (rawFrame P f ++ (trim P s).drop n) := by rw [← eq_rawFrame_append_of_accept hc, hgap]
      _ = interleaved P ((gap, f) :: found) last := by rw [hs, interleaved, List.append_assoc]
  | @rejects s rest r out _ _ _ ih =>
    obtain ⟨found, last, rfl, hs, hlast⟩ := ih
    obtain ⟨front, hfront⟩ := (List.drop_suffix 1 (trim P s)).trans (trim_suffix P s)
    obtain ⟨found', last', hfound', hs', hlast'⟩ := exists_interleaved_append P front found last
    refine ⟨found', last', hfound'.symm, ?_, hlast.trans hlast'⟩
    calc s
      _ = front ++ (trim P s).drop 1 := hfront.symm
      _ = interleaved P found' last' := by rw [hs, hs']

@[simp] theorem findSync_with_maxpay (P : Params) (m : Nat) (s : List Byte) :
    findSync { P with maxpay := m } s = findSync P s := by
  induction s with
  | nil => rfl
  | cons x s ih => rw [findSync, ih, findSync]

@[simp] theorem trim_with_maxpay (P : Params) (m : Nat) (s : Memory) : trim { P with maxpay := m } s = trim P s := by
  rw [trim, findSync_with_maxpay, trim]

@[simp] theorem decodeFrame_with_maxpay (P : Params) (m : Nat) (s : List Byte) :
    decodeFrame { P with maxpay := m } s = decodeFrame P s := rfl

/-- A frame accepted under a larger `MAXPAY` is accepted, if its payload fits (R103). -/
theorem classify_accept_of_larger_maxpay {m : Nat} {s : Memory} {f : Frame} {n : Nat}
    (h : classify { P with maxpay := m } s = .accept f n) (hf : f.payload.length ≤ P.maxpay) : classify P s = .accept f n := by
  obtain ⟨-, hc⟩ | ⟨lo, hi, hlo, hhi, ⟨-, hc⟩ | ⟨-, -, hc⟩ | ⟨-, hlong, ⟨g, hd, hc⟩ | ⟨r, -, hc⟩⟩⟩ :=
    classify_cases { P with maxpay := m } s
  case inr.inr.inr.inl =>
    obtain ⟨hn, -⟩ := classify_accept_valid h
    obtain ⟨rfl, rfl⟩ := Verdict.accept.inj (hc.symm.trans h)
    rw [decodeFrame_with_maxpay] at hd
    rw [classify_declared hlo hhi, if_neg (by omega), if_neg (Nat.not_lt.mpr hlong), hd, decodedVerdict]
  all_goals rw [hc] at h; cases h

/-- A candidate rejected under a larger `MAXPAY` is rejected, maybe for its length (R103). -/
theorem classify_reject_of_larger_maxpay {m : Nat} (hm : P.maxpay ≤ m) {s : Memory} {r : Cause}
    (h : classify { P with maxpay := m } s = .reject r) : ∃ r', classify P s = .reject r' := by
  obtain ⟨-, hc⟩ | ⟨lo, hi, hlo, hhi, ⟨hover, -⟩ | ⟨-, -, hc⟩ | ⟨-, hlong, ⟨g, -, hc⟩ | ⟨r', hd, -⟩⟩⟩ :=
    classify_cases { P with maxpay := m } s
  · rw [hc] at h; cases h
  · exact ⟨_, by rw [classify_declared hlo hhi, if_pos (hm.trans_lt hover)]⟩
  · rw [hc] at h; cases h
  · rw [hc] at h; cases h
  · rw [decodeFrame_with_maxpay] at hd
    rw [classify_declared hlo hhi, if_neg (Nat.not_lt.mpr hlong), hd]
    split
    · exact ⟨_, rfl⟩
    · exact ⟨_, rfl⟩

/-- Where the scan under a larger `MAXPAY` emits no frame that is too long, the scan has emitted all its frames (R115). -/
theorem frames_prefix_of_drains_larger_maxpay {m : Nat} (hm : P.maxpay ≤ m) {s rest : Memory} {out : List Frame}
    (h : Drains { P with maxpay := m } s out rest) (hout : ∀ f ∈ out, f.payload.length ≤ P.maxpay) :
    out <+: (drain P s).1 := by
  induction h with
  | nothing | waits => exact List.nil_prefix
  | accepts h2 hc _ ih =>
    rw [trim_with_maxpay] at h2 hc ih
    obtain ⟨hf, hout⟩ := List.forall_mem_cons.mp hout
    rw [← drain_trim, drain_of_accept (startsWithSync_trim h2) (classify_accept_of_larger_maxpay hc hf)]
    exact List.cons_prefix_cons.mpr ⟨rfl, ih hout⟩
  | rejects h2 hc _ ih =>
    rw [trim_with_maxpay] at h2 hc ih
    obtain ⟨r', hr'⟩ := classify_reject_of_larger_maxpay hm hc
    rw [← drain_trim, drain_of_reject (startsWithSync_trim h2) hr']
    exact ih hout

end Sys2Proof.Laws

/-! Shared laws: an accumulator whose last byte releases 63 frames at once (R113). -/

namespace Sys2Proof.Laws

open Machine

/-- As many empty frames as one rejection can release. -/
def packedFrames : List Frame := List.replicate 63 ⟨0, 0, []⟩

/-- A false header that declares 504 bytes, the empty frames as its payload, and one byte of its checksum. -/
def packedAcc : Memory := [0xB5, 0x62, 0, 0, 0xF8, 0x01] ++ packedFrames.flatMap (rawFrame Config.params) ++ [0]

theorem length_packedAcc : packedAcc.length = 511 := by simp [packedAcc, packedFrames, overhead]

theorem packedAcc_inv : AccInv Config.params packedAcc := by
  have hwait : classify Config.params packedAcc = .wait := by
    rw [classify_declared (lo := 0xF8) (hi := 0x01) rfl rfl, length_packedAcc]
    rfl
  exact .inr (.inr ⟨by rw [length_packedAcc]; decide, rfl, hwait⟩)

/-- A last byte that is not the checksum byte B of the candidate. -/
def packedByte : Byte := (cksum (slice packedAcc 2 510)).ckb + 1

theorem not_checksumMatches_packed : ¬ ChecksumMatches (packedAcc ++ [packedByte]) 504 := by
  rintro ⟨-, hb⟩
  rw [slice_append_of_le (by rw [length_packedAcc]; decide), List.getElem?_append_right (by rw [length_packedAcc]),
    length_packedAcc] at hb
  have hsame : packedByte = (cksum (slice packedAcc 2 510)).ckb := Option.some.inj hb
  exact absurd (add_eq_left.mp hsame) (by decide)

/-- Behind the false header stand the frames, back to back. -/
theorem drain_packed : (drain Config.params ((packedAcc ++ [packedByte]).drop 1)).1 = packedFrames := by
  have hsplit : (packedAcc ++ [packedByte]).drop 1 =
      [0x62, 0, 0, 0xF8, 0x01] ++ (packedFrames.flatMap (rawFrame Config.params) ++ [0, packedByte]) := by
    simp [packedAcc]
  have hframes : ∀ f ∈ packedFrames, f.payload.length ≤ Config.params.maxpay := by
    intro f hf
    rw [List.eq_of_mem_replicate hf]
    exact Nat.zero_le _
  rw [hsplit, drain_noise_append (by decide) (by decide) rfl, drain_rawFrames_append (by decide) hframes,
    drain_frames_of_short (s := [0, packedByte]) (by simp), List.append_nil]

end Sys2Proof.Laws

/-! The statements of 42_reassembly.md. -/

namespace Sys2Proof

open Machine Laws

/-- Settles O3: an `IDLE` is the identity, and what stands before it in the sequence does not matter. -/
theorem idlesChangeNothingAnywhere : Obligations.IdlesChangeNothingAnywhere := by
  refine ⟨fun _ => rfl, fun before after n s => ?_⟩
  rw [List.append_assoc]
  exact execAll_append_congr (execAll_replicate_idle n after) before s

/-- Settles O4: the scan goes the way of the relation (`drains_drain`), and its frames and tail are absorbed. -/
theorem pushbDrainsTheAppendedByte : Obligations.PushbDrainsTheAppendedByte := by
  intro x s
  refine ⟨_, (drain Config.params (s.acc ++ [x])).1, exec_pushb x s, ?_, absorb_out .., absorb_input ..⟩
  rw [absorb_acc]
  exact drains_drain Config.params (s.acc ++ [x])

/-- Settles O7: both feed the chunk. -/
theorem pushIsItsPushbs : Obligations.PushIsItsPushbs := by
  intro chunk s
  refine ⟨_, exec_push chunk s, ?_⟩
  rw [execAll_map_of_delivers (bytes := fun x => [x]) (fun _ => rfl), List.flatMap_singleton']

/-- Settles O33, by the two characterisations of the search. -/
theorem findSyncIsTheFirstPair : Obligations.FindSyncIsTheFirstPair :=
  fun _ _ => ⟨fun _ => findSync_eq_some_iff, findSync_eq_none_iff⟩

/-- Settles O34: the search answers the first pair, and trimming cuts there. -/
theorem trimKeepsWhatCanStartAFrame : Obligations.TrimKeepsWhatCanStartAFrame := by
  intro P s
  refine ⟨fun p hpair hleast => ?_, fun hnone => trim_of_noPair (findSync_eq_none_iff.mpr hnone), trim_suffix P s,
    trim_trim P s, startsWithSync_trim⟩
  simp [trim, findSync_eq_some_iff.mpr ⟨hpair, hleast⟩]

/-- Settles O35: `classify_declared` gives the tests in order, and a whole candidate can fail `Decode` for its checksum only. -/
theorem classifyTests : Obligations.ClassifyTests := by
  intro P s hsync
  refine ⟨classify_of_short, fun lo hi hlo hhi => ?_⟩
  rw [classify_declared hlo hhi]
  refine ⟨fun hover => if_pos hover, fun hmax hshort => ?_, fun hmax hlong => ?_⟩
  · rw [if_neg (Nat.not_lt.mpr hmax), if_pos hshort]
  · rw [if_neg (Nat.not_lt.mpr hmax), if_neg (Nat.not_lt.mpr hlong)]
    refine ⟨fun f hd => by rw [hd, decodedVerdict], fun r hd => ⟨?_, by rw [hd, decodedVerdict]⟩⟩
    refine eq_badCksum_of_whole_candidate (lo := lo) (hi := hi) ?_ ?_ ?_ (List.length_take_of_le hlong).symm hd
    · rw [StartsWithSync, List.take_take, Nat.min_eq_left (by omega)]
      exact hsync
    · rwa [List.getElem?_take_of_lt (by omega)]
    · rwa [List.getElem?_take_of_lt (by omega)]

/-- Settles O36. -/
theorem verdictIgnoresLaterBytes : Obligations.VerdictIgnoresLaterBytes :=
  fun _ _ t hdecided => classify_append hdecided t

/-- Settles O38: the bounded loop goes the way of the relation, and the relation determines its result. -/
theorem drainIsTheScanLoop : Obligations.DrainIsTheScanLoop := by
  intro P s rest out
  refine ⟨fun h => ?_, drain_of_drains⟩
  have hd := drains_drain P s
  rwa [h] at hd

/-- Settles O39, one rule of the scan for each verdict. -/
theorem outcomesMoveTheReadPosition : Obligations.OutcomesMoveTheReadPosition := by
  intro P s hsync
  refine ⟨drain_of_wait hsync, fun f n haccept => ⟨?_, drain_of_accept hsync haccept⟩, fun r => drain_of_reject hsync⟩
  obtain ⟨hn, -⟩ := classify_accept_valid haccept
  exact hn

/-- Settles O41: the chunks are fed as their concatenation, and bytes fed one by one are one scan (`feed_eq_drain`). -/
theorem chunkingIndependence : Obligations.ChunkingIndependence := by
  intro P acc chunks hinv
  rw [foldl_feed, feed_eq_drain hinv, List.nil_append]

/-- Settles O43: the chunks are one scan of the stream, which discards the noise before the frame, emits the frame, and trims the
noise behind it. -/
theorem resynchronisation : Obligations.Resynchronisation := by
  intro f noise1 noise2 chunks s hf hnoise1 hnoise2 hstream hacc
  have hscan : drain Config.params (noise1 ++ rawFrame Config.params f ++ noise2) = ([f], trim Config.params noise2) := by
    rw [List.append_assoc, drain_noise_append (by decide) hnoise1 rfl, drain_rawFrame_append (by decide) hf,
      drain_of_trim_short (length_trim_of_noPair hnoise2)]
  rw [execAll_map_of_delivers (bytes := id) (fun _ => rfl), List.flatMap_id, hstream, hacc, feed_eq_drain (.inl rfl),
    List.nil_append, hscan, absorb_eq, trim_of_noPair hnoise2]

/-- Settles O46: the relation of the scan keeps the emitted frames in place (`exists_interleaved_of_drains`). -/
theorem emittedFramesStandInTheStream : Obligations.EmittedFramesStandInTheStream := by
  intro P stream _
  rw [feed_eq_drain (.inl rfl), List.nil_append]
  obtain ⟨-, hvalid⟩ := drain_inv P stream
  obtain ⟨found, last, hout, hs, hlast⟩ := exists_interleaved_of_drains (drains_drain P stream)
  exact ⟨found, last, hout, hs, hlast, hvalid⟩

/-- Settles O47: the re-scan starts one byte behind the rejected pair, and discards the bytes before the frame as noise. -/
theorem frameInsideRejectedCandidateIsFound : Obligations.FrameInsideRejectedCandidateIsFound := by
  intro P s before after f r hdistinct hok hsync hreject hs hbefore hnoise hf
  have hrescan : s.drop 1 = before.drop 1 ++ (rawFrame P f ++ after) := by
    rw [hs, List.append_assoc, List.drop_append_of_le_length (List.length_pos_iff.mpr hbefore)]
  rw [drain_of_reject hsync hreject, hrescan, drain_noise_append hdistinct hnoise rfl, drain_rawFrame_append hok hf]

/-- Settles O48: the literal algorithm is the scan under the largest `MAXPAY` the field can hold. -/
theorem literalAlgorithmEmitsNoMore : Obligations.LiteralAlgorithmEmitsNoMore := by
  intro P stream ⟨hfield, _⟩ hout
  exact frames_prefix_of_drains_larger_maxpay hfield (drains_drain _ stream) hout

/-- Settles O5, row by row: in `HUNT` and `SYNC1` the bytes themselves decide, in `HEADER` the tests on the length, and in `BODY` the
cases of `pushByte_body_cases`. -/
theorem pushedByteByPhase : Obligations.PushedByteByPhase := by
  intro P acc x _ hinv
  have hlength : (acc ++ [x]).length = acc.length + 1 := List.length_append
  have hkeeps : ∀ {k : Nat} {b : Byte}, acc[k]? = some b → (acc ++ [x])[k]? = some b :=
    getElem?_of_prefix (List.prefix_append acc [x])
  have hlast : acc.length = 5 → (acc ++ [x])[5]? = some x := fun h5 => by rw [← h5, List.getElem?_concat_length]
  have hsync : 2 ≤ acc.length → StartsWithSync P (acc ++ [x]) := fun h2 =>
    startsWithSync_append (candidate_of_accInv hinv h2).left [x]
  have hheader : phase acc = .header → StartsWithSync P (acc ++ [x]) := fun hphase =>
    hsync ((phase_eq_header_iff acc).mp hphase).left
  have hbody : phase acc = .body → StartsWithSync P (acc ++ [x]) := fun hphase =>
    hsync (Nat.le_trans (by decide) ((phase_eq_body_iff acc).mp hphase))
  obtain ⟨-, -, hdecode, -⟩ := decodeReasons P (acc ++ [x])
  refine ⟨fun hphase => ?hunt, fun hphase => ?sync1, fun hphase h5 => ?headerShort, fun lo hphase h5 hlo hmax => ?headerFits,
    fun lo hphase h5 hlo hover => ?headerOver, fun lo hi _ hlo hhi hshort => ?bodyWaits,
    fun c i lo hi hphase hc hi' hlo hhi hwhole hck => ?bodyAccepts, fun lo hi hphase hlo hhi hwhole hck => ?bodyRejects⟩
  case hunt =>
    have hshort : (trim P [x]).length < 2 := by rw [trim_singleton]; split <;> simp
    rw [(phase_eq_hunt_iff acc).mp hphase, pushByte_eq, List.nil_append, drain_of_trim_short hshort, trim_singleton]
  case sync1 =>
    rw [eq_sync0_of_accInv hinv ((phase_eq_sync1_iff acc).mp hphase), pushByte_eq, List.singleton_append]
    by_cases hx : x = P.sync1
    · rw [if_pos hx, hx]
      exact drain_of_wait rfl rfl
    · have hnot : ¬ StartsWithSync P [P.sync0, x] := by simpa [startsWithSync_cons_cons] using hx
      rw [if_neg hx, ← drain_trim, trim_cons_cons hnot, trim_singleton]
      split
      · exact drain_sync0 P
      · exact drain_nil P
  case headerShort =>
    have hshort : (acc ++ [x]).length < hdr := by rw [hlength]; exact Nat.succ_lt_succ h5
    exact drain_of_wait (hheader hphase) (classify_of_short hshort)
  case headerFits =>
    have hwait : classify P (acc ++ [x]) = .wait := by
      rw [classify_declared (hkeeps hlo) (hlast h5), if_neg (Nat.not_lt.mpr hmax), if_pos (by simp only [overhead]; omega)]
    exact ⟨drain_of_wait (hheader hphase) hwait, (phase_eq_body_iff _).mpr (by rw [hlength, h5])⟩
  case headerOver =>
    have hreject : classify P (acc ++ [x]) = .reject .lenOverMax := by
      rw [classify_declared (hkeeps hlo) (hlast h5), if_pos hover]
    have hframes : (drain P ((acc ++ [x]).drop 1)).1 = [] := drain_frames_of_short (by rw [List.length_drop]; omega)
    rw [pushByte_eq, drain_of_reject (hheader hphase) hreject, ← hframes]
  case bodyWaits =>
    obtain ⟨-, hpush⟩ | ⟨hwhole, -⟩ | ⟨hwhole, -⟩ := pushByte_body_cases hinv hlo hhi x
    · exact hpush
    · omega
    · omega
  case bodyAccepts =>
    obtain ⟨-, -, hframe⟩ := hdecode lo hi (hkeeps hlo) (hkeeps hhi)
    have hd := hframe c i (hkeeps hc) (hkeeps hi') (hbody hphase) (hlength ▸ hwhole.symm) hck
    rw [slice_append_of_le (by omega)] at hd
    obtain ⟨hshort, -⟩ | ⟨-, f, hf, -, hpush⟩ | ⟨-, hbad, -⟩ := pushByte_body_cases hinv hlo hhi x
    · omega
    · obtain rfl := DecodeResult.frame.inj (hd.symm.trans hf)
      exact hpush
    · cases hd.symm.trans hbad
  case bodyRejects =>
    obtain ⟨-, hbadCksum, -⟩ := hdecode lo hi (hkeeps hlo) (hkeeps hhi)
    have hd := hbadCksum.mpr ⟨hbody hphase, hlength ▸ hwhole.symm, hck⟩
    obtain ⟨hshort, -⟩ | ⟨-, f, hf, -⟩ | ⟨-, -, -, hpush⟩ := pushByte_body_cases hinv hlo hhi x
    · omega
    · cases hd.symm.trans hf
    · exact hpush

/-- Settles O45: fewer than eight bytes hold no frame; otherwise only a rejection for the checksum leaves bytes to scan, 511 of them at
most, and each frame takes eight. The packed accumulator reaches the bound. -/
theorem framesPerOperation : Obligations.FramesPerOperation := by
  refine ⟨fun acc x hinv => ?bound, packedAcc, packedByte, packedAcc_inv, ?reached⟩
  case bound =>
    by_cases hshort : acc.length < 7
    case pos =>
      have hnone : (pushByte Config.params acc x).1 = [] :=
        drain_frames_of_short (s := acc ++ [x]) (by rw [List.length_append]; exact Nat.succ_lt_succ hshort)
      simp [hnone]
    have h6 : hdr ≤ acc.length := by simp only [hdr]; omega
    obtain ⟨-, hwait⟩ := candidate_of_accInv hinv (Nat.le_trans (by decide) h6)
    obtain ⟨lo, hi, hlo, hhi, -⟩ := declared_of_classify_wait hwait h6
    obtain ⟨-, hpush⟩ | ⟨-, f, -, hc, hpush⟩ | ⟨-, -, hc, hpush⟩ := pushByte_body_cases hinv hlo hhi x
    · simp [hpush]
    · simp [hpush, hc]
    · have hacc : acc.length < 512 := length_lt_of_accInv hinv
      have hframes := length_drain_le Config.params ((acc ++ [x]).drop 1)
      rw [List.length_drop, List.length_append, List.length_singleton] at hframes
      rw [hpush, hc]
      exact ⟨by omega, fun hnone => absurd rfl (hnone _), nofun⟩
  case reached =>
    obtain ⟨-, -, -, -, -, -, -, hrejects⟩ := pushedByteByPhase Config.params packedAcc packedByte (by decide) packedAcc_inv
    have hbody : phase packedAcc = .body := (phase_eq_body_iff _).mpr (by rw [length_packedAcc]; decide)
    rw [hrejects 0xF8 0x01 hbody rfl rfl (by rw [length_packedAcc]; rfl) not_checksumMatches_packed, drain_packed]
    exact List.length_replicate

/-- Settles O1: `RESET` replaces the accumulator and the history, so a second one replaces them by the same. -/
theorem resetEmptiesTheAccumulator : Obligations.ResetEmptiesTheAccumulator :=
  fun s => ⟨{ s with acc := [], out := [] }, rfl, rfl, rfl, (phase_eq_hunt_iff _).mpr rfl, rfl, rfl, rfl, rfl⟩

end Sys2Proof

/-! Shared laws: a step passes one edge (R51, R130), and the causes that `Classify` answers (R131, R134). -/

namespace Sys2Proof.Laws

open Machine

variable {P : Params}

/-- With any parameters a step goes on, with one edge of the input past (R51, R130). -/
theorem stepOf_passes_edge (P : Params) (s : State) : ∃ t, stepOf P s = .next t ∧ t.input = s.input.tail := by
  cases hin : s.input with
  | nil => exact ⟨s, stepOf_nil hin, hin⟩
  | cons e rest => exact ⟨_, stepOf_cons hin, rfl⟩

/-- A run of `n` steps goes on, with `n` edges of the input past. -/
theorem run_blockOf_passes_edges (P : Params) (n : Nat) (s : State) :
    ∃ t : State, Host.Core.run (blockOf P) n s = .next t ∧ t.input = s.input.drop n := by
  induction n generalizing s with
  | zero => exact ⟨s, rfl, rfl⟩
  | succ n ih =>
    obtain ⟨u, hstep, hu⟩ := stepOf_passes_edge P s
    obtain ⟨t, hrun, ht⟩ := ih u
    exact ⟨t, (run_succ_of_next (M := blockOf P) n hstep).trans hrun, by rw [ht, hu, List.drop_tail]⟩

/-- `Classify` rejects for the declared length or for the checksum only (R103). -/
theorem cause_of_classify_reject {s : Memory} {r : Cause} (h : classify P s = .reject r) :
    r = .lenOverMax ∨ r = .badCksum := by
  obtain ⟨-, hc⟩ | ⟨lo, hi, -, -, ⟨-, hc⟩ | ⟨-, -, hc⟩ | ⟨-, -, ⟨f, -, hc⟩ | ⟨r', -, hc⟩⟩⟩ := classify_cases P s <;>
    rw [hc] at h <;> cases h
  · exact .inl rfl
  · exact .inr rfl

/-- `LEN_OVER_MAX` is the one cause above code 3 (R131). -/
theorem code_le_three_iff (r : Cause) : r.code ≤ 3 ↔ r ≠ .lenOverMax := by cases r <;> decide

end Sys2Proof.Laws

/-! The statements of 60_exceptions.md. -/

namespace Sys2Proof

open Machine Laws

/-- Settles O14, by induction on the number of steps in `run_blockOf_passes_edges`: past the listed edges the port is quiet and
the machine idles (R140, log entry 5). -/
theorem runsNeverStop : Obligations.RunsNeverStop := by
  intro n s
  rw [run_core]
  exact run_blockOf_passes_edges Config.params n s

/-- Settles O37: `Decode` never answers `LEN_OVER_MAX` (O30), and a rejection has one of two causes. -/
theorem causesAndTheirOrigins : Obligations.CausesAndTheirOrigins := by
  refine ⟨⟨rfl, rfl, rfl, rfl, rfl⟩, fun P s r hdecode => ?_, fun P s r hreject => ?_⟩
  · obtain ⟨-, -, -, hnever⟩ := decodeReasons P s
    exact (code_le_three_iff r).mpr fun hr => hnever (hr ▸ hdecode)
  · obtain rfl | rfl := cause_of_classify_reject hreject <;> decide

end Sys2Proof

/-! Shared laws: the observation of a run (R152, R165). -/

namespace Sys2Proof.Laws

open Machine

variable {P : Params}

/-- A `RESET` emits nothing and forgets the accumulator it is given (R23, R106). -/
theorem observeFrom_reset_cons {w : PortWord} (hw : decodePort w = .reset) (acc : Memory) (rest : List PortWord) :
    observeFrom P acc (w :: rest) = [] :: observeFrom P [] rest := by
  rw [observeFrom, hw]
  rfl

/-- From a `RESET` on, the observation is the same whatever words and whatever accumulator were before it. -/
theorem observeFrom_append_reset {w : PortWord} (hw : decodePort w = .reset) (acc : Memory) (before after : List PortWord) :
    observeFrom P acc (before ++ w :: after) = observeFrom P acc before ++ observeFrom P [] (w :: after) := by
  induction before generalizing acc with
  | nil => rw [List.nil_append, observeFrom_reset_cons hw, observeFrom_reset_cons hw, observeFrom, List.nil_append]
  | cons v rest ih =>
    rw [List.cons_append, observeFrom, ih]
    rfl

theorem beginsWithReset_cons_iff (w : PortWord) (rest : List PortWord) :
    beginsWithReset (w :: rest) = true ↔ decodePort w = .reset := by
  simp [beginsWithReset]

/-- A sequence led by `RESET` stays so when words follow it. -/
theorem beginsWithReset_append {ws : List PortWord} (h : beginsWithReset ws = true) (more : List PortWord) :
    beginsWithReset (ws ++ more) = true := by
  cases ws with
  | nil => cases h
  | cons w rest => exact h

/-- A run's observation is the one from the empty accumulator, for the sequences that begin with `RESET` only (R152). -/
theorem observeRun_eq (P : Params) (ws : List PortWord) :
    observeRun P ws = if beginsWithReset ws = true then some (observeFrom P [] ws) else none := by
  cases ws with
  | nil => rfl
  | cons w rest =>
    simp only [observeRun, beginsWithReset_cons_iff]
    split
    case isTrue hw => rw [observeFrom_reset_cons hw]
    case isFalse => rfl

theorem observeRun_of_beginsWithReset {ws : List PortWord} (h : beginsWithReset ws = true) :
    observeRun P ws = some (observeFrom P [] ws) := by
  rw [observeRun_eq, if_pos h]

end Sys2Proof.Laws

/-! The statements of 70_reset_and_hazards.md. -/

namespace Sys2Proof

open Machine Laws

/-- Settles O17: a run's observation is the one from the empty accumulator (`observeRun_eq`), and a `RESET` inside it leaves the
accumulator empty again for the words after it (`observeFrom_append_reset`). -/
theorem runsBeginWithReset : Obligations.RunsBeginWithReset := by
  refine ⟨fun P ws => by simp [observeRun_eq], fun P w before after hbefore hw => ?segments⟩
  case segments =>
    have hafter : beginsWithReset (w :: after) = true := (beginsWithReset_cons_iff w after).mpr hw
    refine ⟨_, _, observeRun_of_beginsWithReset hbefore, observeRun_of_beginsWithReset hafter, ?_⟩
    rw [observeRun_of_beginsWithReset (beginsWithReset_append hbefore _), observeFrom_append_reset hw]

end Sys2Proof
